-- ==== Sys2Proof/Word.lean ====
section
/-! DEFINITION. The words of WideDivider: limbs, wide values, headers and single bits
(`00_scope.md` R6, R9, R12, R13; `10_state.md` R21). -/

namespace Sys2Proof

/-- One limb: 128 bits (R6 `LIMB_BITS`). -/
abbrev Limb := BitVec 128

/-- A `WideUint`: 512 bits, limb `i` at bits `[128*i + 127 : 128*i]` (R6 `WIDTH`, R21, R51, R52). Every pattern is
valid, and `val(X)` of R13 is `X.toNat`. -/
abbrev Wide := BitVec 512

/-- The 16-bit request header `req_hdr` (R24, R71). -/
abbrev Header := BitVec 16

/-- The auxiliary value of a header (R9 `AUX_BITS`, R72). -/
abbrev Aux := BitVec 10

/-- A single bit: a carry, a borrow, a flag. -/
abbrev Bit := BitVec 1

/-- The request as one vector (`30_encoding.md` R70). -/
abbrev ReqVector := BitVec 1040

end Sys2Proof
end

