-- ==== Sys2Proof/Syntax.lean ====
section
/-! DEFINITION. The operations of WideDivider, one constructor per row of the opcode map (`30_encoding.md` R73). The
operands `A` and `B` travel in the request and stand in the operand latches, so an operation carries only what its
header carries: a carry-in, a borrow-in or a shift count (R72). -/

namespace Sys2Proof

/-- An operation, the analogue of an instruction (`00_scope.md` R19, `30_encoding.md` R73, R80). -/
inductive Instr where
  /-- `ADCL`, add two limbs with carry (R105). -/
  | adcl (cin : Bit)
  /-- `SBBL`, subtract two limbs with borrow (R106). -/
  | sbbl (bin : Bit)
  /-- `CMPW`, compare two wide values (R108). -/
  | cmpw
  /-- `SHLW`, shift a wide value left (R110). -/
  | shlw (bits : Aux)
  /-- `SHRW`, shift a wide value right (R112). -/
  | shrw (bits : Aux)
  /-- `ISZW`, test a wide value for zero (R114). -/
  | iszw
  /-- `DIVREM`, divide with remainder (R130). -/
  | divrem
  /-- `ADDW`, add two wide values with carry (R117). -/
  | addw (cin : Bit)
  /-- `SUBW`, subtract two wide values with borrow (R118). -/
  | subw (bin : Bit)
deriving DecidableEq, Repr

/-- The mnemonic of R73 and R81. -/
def Instr.mnemonic : Instr → String
  | .adcl _ => "ADCL"
  | .sbbl _ => "SBBL"
  | .cmpw => "CMPW"
  | .shlw _ => "SHLW"
  | .shrw _ => "SHRW"
  | .iszw => "ISZW"
  | .divrem => "DIVREM"
  | .addw _ => "ADDW"
  | .subw _ => "SUBW"

/-- Why a header is reserved (R74): one name for each of the conditions listed there. -/
inductive Reserved where
  /-- `rsv != 0`. -/
  | rsvNonzero
  /-- `op = 0x0` or `op` in `0xA..0xF`. -/
  | opUnassigned
  /-- `aux` outside the legal values of R72 for its `op`. -/
  | auxIllegal
deriving DecidableEq, Repr

/-- What a header decodes to: `operation or reserved` (R80). -/
inductive Decoded where
  | operation (i : Instr)
  | reserved (why : Reserved)
deriving DecidableEq, Repr

/-- The operation of a decoded header, if it is one. -/
def Decoded.instr? : Decoded → Option Instr
  | .operation i => some i
  | .reserved _ => none

/-- A request (`10_state.md` R24). -/
structure Request where
  hdr : Header
  a : Wide
  b : Wide
deriving DecidableEq, Repr

/-- The request as one 1040-bit vector: `REQ[1039:1024] = req_hdr`, `REQ[1023:512] = req_b`, `REQ[511:0] = req_a`
(`30_encoding.md` R70). -/
def Request.toVector (r : Request) : ReqVector := r.hdr ++ r.b ++ r.a

/-- The request a 1040-bit vector stands for (R70). -/
def Request.ofVector (v : ReqVector) : Request where
  hdr := v.extractLsb' 1024 16
  b := v.extractLsb' 512 512
  a := v.extractLsb' 0 512

end Sys2Proof
end

