-- ==== Sys2Proof/WellFormed.lean ====
section
/-! DEFINITION. Which headers and requests are legal, by the `match` and `mask` rows of the opcode map
(`30_encoding.md` R73, R74), written apart from the decoder of `Sys2Proof/Decode.lean` so that the two can be compared.
An operation as syntax is always well-formed: R72's ranges are its operands' types, so a carry-in of 2 or a count of
1024 cannot be written down, as they cannot in a header (`91_not_in_source.md` N13). -/

namespace Sys2Proof

/-- One row of the opcode map (R73): it selects a header `h` when `h & mask == match`. -/
structure OpcodeRow where
  mnemonic : String
  bits : Header
  mask : Header
deriving DecidableEq, Repr

/-- R73: a row selects a header. -/
def OpcodeRow.selects (row : OpcodeRow) (h : Header) : Bool := h &&& row.mask == row.bits

/-- The nine rows of R73. -/
def opcodeRows : List OpcodeRow :=
  [⟨"ADCL", 0x1000, 0xFFFE⟩, ⟨"SBBL", 0x2000, 0xFFFE⟩, ⟨"CMPW", 0x3000, 0xFFFF⟩, ⟨"SHLW", 0x4000, 0xFC00⟩,
   ⟨"SHRW", 0x5000, 0xFC00⟩, ⟨"ISZW", 0x6000, 0xFFFF⟩, ⟨"DIVREM", 0x7000, 0xFFFF⟩, ⟨"ADDW", 0x8000, 0xFFFE⟩,
   ⟨"SUBW", 0x9000, 0xFFFE⟩]

/-- A header is legal when some row of R73 selects it; otherwise it is reserved (R74). -/
def Header.wellFormed (h : Header) : Bool := opcodeRows.any (·.selects h)

/-- A request is legal when its header is: every operand pattern is valid (`10_state.md` R21, `30_encoding.md` R75). -/
def Request.wellFormed (r : Request) : Bool := Header.wellFormed r.hdr

/-- Every operation is well-formed: its operand's range (R72) is its operand's type. -/
def Instr.wellFormed : Instr → Bool
  | .adcl _ | .sbbl _ | .cmpw | .shlw _ | .shrw _ | .iszw | .divrem | .addw _ | .subw _ => true

end Sys2Proof
end

