-- ==== Sys2Proof/Decode.lean ====
section
/-! DEFINITION. Decoding a header and encoding an operation (`30_encoding.md` R71, R72, R74, R80). -/

namespace Sys2Proof

/-- `op = req_hdr[15:12]` (R71). -/
def headerOp (h : Header) : BitVec 4 := h.extractLsb' 12 4

/-- `rsv = req_hdr[11:10]` (R71). -/
def headerRsv (h : Header) : BitVec 2 := h.extractLsb' 10 2

/-- `aux = req_hdr[9:0]` (R71). -/
def headerAux (h : Header) : Aux := h.extractLsb' 0 10

/-- A header made of its three fields (R71). -/
def headerOfFields (op : BitVec 4) (rsv : BitVec 2) (aux : Aux) : Header := op ++ rsv ++ aux

/-- An operation with a carry-in or a borrow-in in `aux[0]` needs `aux[9:1] = 0` (R72). -/
def decodeCarryIn (aux : Aux) (mk : Bit → Instr) : Decoded :=
  if aux.extractLsb' 1 9 = 0 then .operation (mk (aux.extractLsb' 0 1)) else .reserved .auxIllegal

/-- An operation that takes nothing from the header needs `aux = 0` (R72). -/
def decodePlain (aux : Aux) (i : Instr) : Decoded :=
  if aux = 0 then .operation i else .reserved .auxIllegal

/-- `decode` of R80, total on every header. -/
def decode (h : Header) : Decoded :=
  let op := headerOp h
  let rsv := headerRsv h
  let aux := headerAux h
  if rsv ≠ 0 then .reserved .rsvNonzero
  else if op = 0x1 then decodeCarryIn aux .adcl
  else if op = 0x2 then decodeCarryIn aux .sbbl
  else if op = 0x3 then decodePlain aux .cmpw
  else if op = 0x4 then .operation (.shlw aux)
  else if op = 0x5 then .operation (.shrw aux)
  else if op = 0x6 then decodePlain aux .iszw
  else if op = 0x7 then decodePlain aux .divrem
  else if op = 0x8 then decodeCarryIn aux .addw
  else if op = 0x9 then decodeCarryIn aux .subw
  else .reserved .opUnassigned

/-- The operation code of an operation (R73). -/
def opcode : Instr → BitVec 4
  | .adcl _ => 0x1
  | .sbbl _ => 0x2
  | .cmpw => 0x3
  | .shlw _ => 0x4
  | .shrw _ => 0x5
  | .iszw => 0x6
  | .divrem => 0x7
  | .addw _ => 0x8
  | .subw _ => 0x9

/-- The auxiliary value of an operation (R72). -/
def auxOf : Instr → Aux
  | .adcl c | .sbbl c | .addw c | .subw c => c.setWidth 10
  | .shlw k | .shrw k => k
  | .cmpw | .iszw | .divrem => 0

/-- `encode` of R80: the header of an operation. -/
def encode (i : Instr) : Header := headerOfFields (opcode i) 0 (auxOf i)

/-- The header among the low bits of a table word: bit 0 of the word is bit 0 of the header, and bits at and above
`nbits` are zero. Bits above the header are operand bits, which no operation decodes (R70, R80). -/
def headerOfTableWord (nbits w : Nat) : Header := BitVec.ofNat 16 (w % 2 ^ nbits)

/-- The operation the decoder reads from a table word. -/
def decodeTableWord (nbits w : Nat) : Option Instr := (decode (headerOfTableWord nbits w)).instr?

end Sys2Proof
end

