-- ==== Sys2Proof/Machine/Operands.lean ====
section
/-! DEFINITION. The views of a wide value the operations use: limbs (`00_scope.md` R13, `20_memory.md` R51), single
bits (R12), and the digits of the Algorithm D engine (R14, `20_memory.md` R53). -/

namespace Sys2Proof.Machine

/-- `X.limb[i]` (R13). -/
def limb (x : Wide) (i : Nat) : Limb := x.extractLsb' (128 * i) 128

/-- The wide value with the four given limbs, least significant first (R13). -/
def ofLimbs (l0 l1 l2 l3 : Limb) : Wide := l3 ++ l2 ++ l1 ++ l0

/-- `X.limb[0] <- v`, the other limbs as they were. -/
def setLimb0 (x : Wide) (v : Limb) : Wide := x.extractLsb' 128 384 ++ v

/-- `x[k] := b` (R12). -/
def writeBit (x : Wide) (k : Nat) (b : Bool) : Wide :=
  if b then x ||| (1#512 <<< k) else x &&& ~~~(1#512 <<< k)

/-- The `nd` digits of `wd` bits of a wide value: digit `i` is bits `[wd*i + wd - 1 : wd*i]` (R53). -/
def digitsOf (wd nd : Nat) (x : Wide) : List (BitVec wd) :=
  (List.range nd).map fun i => x.extractLsb' (wd * i) wd

/-- `val` of a digit array (R14): the sum of `d[i] * B^i` with `B = 2^wd`. -/
def digitsVal {wd : Nat} : List (BitVec wd) → Nat
  | [] => 0
  | d :: ds => d.toNat + 2 ^ wd * digitsVal ds

/-- The 512-bit value with the given digits. -/
def ofDigits {wd : Nat} (ds : List (BitVec wd)) : Wide := BitVec.ofNat 512 (digitsVal ds)

/-- Digit `i` of a digit array. -/
def digit {wd : Nat} (ds : List (BitVec wd)) (i : Nat) : BitVec wd := ds.getD i 0

/-- The number of significant digits: one more than the greatest index of a nonzero digit, 0 when there is none. -/
def significantDigits {wd : Nat} : List (BitVec wd) → Nat
  | [] => 0
  | d :: ds =>
    match significantDigits ds with
    | 0 => if d = 0 then 0 else 1
    | n + 1 => n + 2

end Sys2Proof.Machine
end

