-- ==== Sys2Proof/Machine/Arith.lean ====
section
/-! DEFINITION. The limb functions and the wide functions built from them (`40_limb_primitives.md` R100 to R116). Each
is a pure function; the operations and the engine call these and no other arithmetic. Functions the engine also uses
have their width as a parameter (R102). -/

namespace Sys2Proof.Machine

/-- `adc(W; a, b, cin)` (R100). -/
def adc {w : Nat} (a b : BitVec w) (cin : Bit) : BitVec w × Bit :=
  let t := a.toNat + b.toNat + cin.toNat
  (BitVec.ofNat w t, BitVec.ofNat 1 (t / 2 ^ w))

/-- `sbb(W; a, b, bin)` (R101). The test compares with the unbounded sum `b + bin`. -/
def sbb {w : Nat} (a b : BitVec w) (bin : Bit) : BitVec w × Bit :=
  if b.toNat + bin.toNat ≤ a.toNat then (BitVec.ofNat w (a.toNat - (b.toNat + bin.toNat)), 0)
  else (BitVec.ofNat w (a.toNat + 2 ^ w - (b.toNat + bin.toNat)), 1)

/-- `mul(W; a, b) -> (lo, hi)` (R103). -/
def mulDigits {w : Nat} (a b : BitVec w) : BitVec w × BitVec w :=
  let p := a.toNat * b.toNat
  (BitVec.ofNat w p, BitVec.ofNat w (p / 2 ^ w))

/-- `clz(W; x)` (R104): `W - 1 - floor(log2 x)`, and nothing for `x = 0` (`93_implementation_defined.md` U5). -/
def clz? {w : Nat} (x : BitVec w) : Option Nat :=
  if x = 0 then none else some (w - 1 - Nat.log2 x.toNat)

/-- The loop of `compare` from limb `n - 1` down to limb 0 (R107). -/
def compareFrom (x y : Wide) : Nat → Ordering
  | 0 => .eq
  | i + 1 =>
    if (limb x i).toNat < (limb y i).toNat then .lt
    else if (limb y i).toNat < (limb x i).toNat then .gt
    else compareFrom x y i

/-- `compare(X, Y)`, lexicographic from the most significant limb down (R107). -/
def compareWide (x y : Wide) : Ordering := compareFrom x y 4

/-- `shift_left(X, bits)` (R109): truncating, all zero from 512 up. -/
def shiftLeft (x : Wide) (bits : Nat) : Wide :=
  if 512 ≤ bits then 0 else BitVec.ofNat 512 (x.toNat * 2 ^ bits)

/-- `shift_right(X, bits)` (R111): logical, all zero from 512 up. -/
def shiftRight (x : Wide) (bits : Nat) : Wide :=
  if 512 ≤ bits then 0 else BitVec.ofNat 512 (x.toNat / 2 ^ bits)

/-- `is_zero(X)` (R113): all four limbs are zero. -/
def isZero (x : Wide) : Bool := limb x 0 = 0 ∧ limb x 1 = 0 ∧ limb x 2 = 0 ∧ limb x 3 = 0

/-- `add_wide(X, Y, cin)`, the four-limb carry chain (R115). -/
def addWide (x y : Wide) (cin : Bit) : Wide × Bit :=
  let (s0, c0) := adc (limb x 0) (limb y 0) cin
  let (s1, c1) := adc (limb x 1) (limb y 1) c0
  let (s2, c2) := adc (limb x 2) (limb y 2) c1
  let (s3, c3) := adc (limb x 3) (limb y 3) c2
  (ofLimbs s0 s1 s2 s3, c3)

/-- `sub_wide(X, Y, bin)`, the four-limb borrow chain (R116). -/
def subWide (x y : Wide) (bin : Bit) : Wide × Bit :=
  let (d0, b0) := sbb (limb x 0) (limb y 0) bin
  let (d1, b1) := sbb (limb x 1) (limb y 1) b0
  let (d2, b2) := sbb (limb x 2) (limb y 2) b1
  let (d3, b3) := sbb (limb x 3) (limb y 3) b2
  (ofLimbs d0 d1 d2 d3, b3)

end Sys2Proof.Machine
end

