-- ==== Sys2Proof/Machine/Flags.lean ====
section
/-! DEFINITION. The flag register `FL` (`10_state.md` R28), the code of a comparison (`30_encoding.md` R77) and the
status codes (R29, R78). A flag is written by the operation that names it and by nothing else; the bits an operation
does not write keep what the latch held. -/

namespace Sys2Proof.Machine

/-- `FL.CARRY` = `FL[0]`. -/
def flagCarry (fl : BitVec 4) : Bit := fl.extractLsb' 0 1

/-- `FL.CMP` = `FL[2:1]`. -/
def flagCmp (fl : BitVec 4) : BitVec 2 := fl.extractLsb' 1 2

/-- `FL.ZERO` = `FL[3]`. -/
def flagZero (fl : BitVec 4) : Bit := fl.extractLsb' 3 1

/-- `FL.CARRY <- c`. -/
def setFlagCarry (fl : BitVec 4) (c : Bit) : BitVec 4 := flagZero fl ++ flagCmp fl ++ c

/-- `FL.CMP <- c`. -/
def setFlagCmp (fl : BitVec 4) (c : BitVec 2) : BitVec 4 := flagZero fl ++ c ++ flagCarry fl

/-- `FL.ZERO <- z`. -/
def setFlagZero (fl : BitVec 4) (z : Bit) : BitVec 4 := z ++ flagCmp fl ++ flagCarry fl

/-- The code of a comparison result (R77). -/
def cmpCode : Ordering → BitVec 2
  | .eq => 0b00
  | .lt => 0b01
  | .gt => 0b10

/-- The comparison result of a code; `0b11` is never produced (R77). -/
def cmpOfCode (c : BitVec 2) : Option Ordering :=
  if c = 0b00 then some .eq else if c = 0b01 then some .lt else if c = 0b10 then some .gt else none

/-- `OK` (R29, R78). -/
def statusOk : BitVec 2 := 0b00

/-- `DIVISION_BY_ZERO` (R29, R78). -/
def statusDivisionByZero : BitVec 2 := 0b01

end Sys2Proof.Machine
end

