-- ==== Sys2Proof/Config.lean ====
section
/-! DEFINITION. The two implementation parameters of the block (`00_scope.md` R7, R8, R10). They are fixed when the
block is built; the model holds their values in State, where no step writes them, so that every claim about a state is
a claim about every value of the parameters (log 3). -/

namespace Sys2Proof.Config

/-- `ENGINE` (R8): which sequencer performs `DIVREM`. -/
inductive Engine where
  | knuthD
  | longDiv
deriving DecidableEq, Repr

/-- `DIGIT_BITS` (R7): the digit width of the Algorithm D engine. -/
inductive DigitBits where
  | bits128
  | bits64
deriving DecidableEq, Repr

/-- The number `DIGIT_BITS`. -/
def DigitBits.width : DigitBits → Nat
  | .bits128 => 128
  | .bits64 => 64

/-- The number `DIGITS = 512 / DIGIT_BITS`. -/
def DigitBits.count : DigitBits → Nat
  | .bits128 => 4
  | .bits64 => 8

/-- R8: the default engine. -/
def defaultEngine : Engine := .knuthD

/-- R7: the default digit width. -/
def defaultDigitBits : DigitBits := .bits128

end Sys2Proof.Config
end

