-- ==== Sys2Proof/Machine/State.lean ====
section
/-! DEFINITION. The state of WideDivider as plain data (`10_state.md`), the responses, the ways a step can stop, and the
state after reset. -/

namespace Sys2Proof.Machine

open Sys2Proof.Config

/-- `IFS`, the interface state (R23). -/
inductive Ifs where
  | idle
  | busy
  | resp
deriving DecidableEq, Repr

/-- `PH`, the phase of `DIVREM` in progress. `k0` to `d8` and `k9` are the phases of `42_knuth_d_engine.md` R152. The
long division (R176) shares `k0` and `k9`; its own phases have no names in the spec: `longInit` sets `REM` and `QUO` to
zero, `longIter` is one iteration of step 3 of R134, `longDone` is its steps 4 and 5 (log 10). -/
inductive Phase where
  | k0
  | k1
  | d1
  | d2
  | d3a
  | d3b
  | d4
  | d5
  | d6
  | d7
  | d8
  | k9
  | longInit
  | longIter
  | longDone
deriving DecidableEq, Repr

/-- The operand latches (R26). -/
structure OperandLatches where
  op : BitVec 4
  aux : Aux
  a : Wide
  b : Wide
deriving DecidableEq, Repr

/-- The result latches (R27). -/
structure ResultLatches where
  st : BitVec 2
  q : Wide
  r : Wide
  fl : BitVec 4
deriving DecidableEq, Repr

/-- The sequencer registers `PH`, `J`, `I` (R31). -/
structure Sequencer where
  ph : Phase
  j : Nat
  i : Nat
deriving DecidableEq, Repr

/-- The working registers of the long division (R32). -/
structure LongRegs where
  rem : Wide
  quo : Wide
deriving DecidableEq, Repr

/-- The working registers of Algorithm D for `nd` digits of `wd` bits (R32), least significant digit first: `U` has
`nd + 1` digits, `V` and `QA` have `nd` (log 12). -/
structure KnuthRegs (wd nd : Nat) where
  u : List (BitVec wd)
  v : List (BitVec wd)
  qa : List (BitVec wd)
  nsig : Nat
  s : Nat
  qhat : BitVec (wd + 1)
  rhat : BitVec (wd + 1)
  bw : Bit
deriving DecidableEq, Repr

/-- The working registers of Algorithm D as built: 4 digits of 128 bits or 8 digits of 64 bits (R7, R32). Which of the
two it is IS the parameter `DIGIT_BITS` (log 3). -/
inductive KnuthFile where
  | digits128 (k : KnuthRegs 128 4)
  | digits64 (k : KnuthRegs 64 8)
deriving DecidableEq, Repr

/-- The payload of an `Ok` response, one shape per row of `30_encoding.md` R76. A field that is not in the payload is
absent (`93_implementation_defined.md` U1). -/
inductive Payload where
  /-- `ADCL`, `SBBL`: `rsp_q[127:0]` and `rsp_flags[0]`. -/
  | limbCarry (value : Limb) (carry : Bit)
  /-- `CMPW`: `rsp_flags[2:1]`. -/
  | ordering (o : Ordering)
  /-- `SHLW`, `SHRW`: `rsp_q`. -/
  | wide (value : Wide)
  /-- `ISZW`: `rsp_flags[3]`. -/
  | zero (z : Bit)
  /-- `DIVREM`: `rsp_q` and `rsp_r`. -/
  | divided (quotient remainder : Wide)
  /-- `ADDW`, `SUBW`: `rsp_q` and `rsp_flags[0]`. -/
  | wideCarry (value : Wide) (carry : Bit)
deriving DecidableEq, Repr

/-- The response record (R25): `Ok(payload)` or `Err(DivisionByZero)`, which carries nothing (`60_exceptions.md` R202,
`93_implementation_defined.md` U2). -/
inductive Response where
  | ok (p : Payload)
  | divisionByZero
deriving DecidableEq, Repr

/-- The requester's side of the interface. It belongs to no register of the block: it is the model's record of what the
requester is doing, and the environment may change it between any two steps (log 4). -/
structure Requester where
  /-- The requests offered, oldest first; the head is on `req_hdr`, `req_a`, `req_b` and is held there until it is
  accepted (`60_exceptions.md` R206). -/
  offers : List Request
  /-- Whether the requester takes a completed response (`70_reset_and_hazards.md` R225). -/
  willTake : Bool
  /-- The reset input is asserted (`70_reset_and_hazards.md` R220). -/
  rst : Bool
  /-- The responses the requester has taken, oldest first (`10_state.md` R35 step 4, `20_memory.md` R58). -/
  delivered : List Response
deriving DecidableEq, Repr

/-- The whole machine. -/
structure State where
  /-- The parameter `ENGINE` (`00_scope.md` R8). -/
  engine : Engine
  /-- `IFS` (R23). -/
  ifs : Ifs
  /-- `OP`, `AUX`, `A`, `B` (R26). -/
  opnd : OperandLatches
  /-- `ST`, `Q`, `R`, `FL` (R27). -/
  res : ResultLatches
  /-- `PH`, `J`, `I` (R31). -/
  seq : Sequencer
  /-- `REM`, `QUO` (R32). -/
  long : LongRegs
  /-- `U`, `V`, `QA`, `NSIG`, `S`, `QHAT`, `RHAT`, `BW` (R32), and the parameter `DIGIT_BITS` (`00_scope.md` R7). -/
  knuth : KnuthFile
  /-- The requester's side (log 4). -/
  env : Requester
deriving DecidableEq, Repr

/-- Why the machine stops. Every one of them is safe: the model stops where the spec gives nothing, and none is reached
from a state a run from reset reaches (log 9). -/
inductive Fault where
  /-- The compute or the deliver step in a state whose `OP` and `AUX` are those of no operation (accept latches none
  such). Raised by `latchedOperation`. Safe. -/
  | noOperationLatched
  /-- Deliver with `ST` equal to `0b10` or `0b11`, which are never produced (R29). Raised by `readResponse`. Safe. -/
  | statusNeverProduced
  /-- Deliver of a `CMPW` response with `FL.CMP` equal to `0b11`, which is never produced (`30_encoding.md` R77). Raised
  by `readResponse`. Safe. -/
  | orderingNeverProduced
  /-- `clz(W; 0)`, stuck if ever evaluated (`93_implementation_defined.md` U5). Raised by phase `D1`. Safe. -/
  | clzOfZero
  /-- `div2by1` outside its precondition, stuck if ever evaluated (`93_implementation_defined.md` U6). Raised by phase
  `D3A`. Safe. -/
  | div2by1Precondition
  /-- The compute step did not end within the phase steps that bound it (`70_reset_and_hazards.md` R227, which says it
  always does). Raised by `runPhases`. Safe. -/
  | computeDidNotEnd
deriving DecidableEq, Repr

/-- Why a step has no meaning. -/
inductive Refusal where
  /-- An operation with no meaning in this model yet, by its mnemonic. Raised by `exec` alone. Safe. -/
  | notModelled (mnemonic : String)
  /-- The request offered while the block is idle has a reserved header: the accept step is not enabled, nothing is
  latched and no response will come (`60_exceptions.md` R205, `30_encoding.md` R74). Raised by `stepIdle`. Safe. -/
  | reservedHeader (why : Reserved)
deriving DecidableEq, Repr

/-- The parameter `DIGIT_BITS` of a block. -/
def State.digitBits (s : State) : DigitBits :=
  match s.knuth with
  | .digits128 _ => .bits128
  | .digits64 _ => .bits64

/-- The Algorithm D registers as the model names them after reset: zero in every register but `NSIG`, which has the
least value of its range `1..ND` (log 1). -/
def KnuthRegs.reset (wd nd : Nat) : KnuthRegs wd nd where
  u := List.replicate (nd + 1) 0
  v := List.replicate nd 0
  qa := List.replicate nd 0
  nsig := 1
  s := 0
  qhat := 0
  rhat := 0
  bw := 0

/-- The register file of a block built with the given `DIGIT_BITS`, after reset. -/
def KnuthFile.reset : DigitBits → KnuthFile
  | .bits128 => .digits128 (KnuthRegs.reset 128 4)
  | .bits64 => .digits64 (KnuthRegs.reset 64 8)

/-- The block after reset (R36, `70_reset_and_hazards.md` R220), for given parameters and a given requester. `IFS` is
`IDLE` as the spec says; every other register is unspecified there and has the value log 1 names. -/
def State.afterReset (e : Engine) (d : DigitBits) (env : Requester) : State where
  engine := e
  ifs := .idle
  opnd := ⟨0, 0, 0, 0⟩
  res := ⟨0, 0, 0, 0⟩
  seq := ⟨.k0, 0, 0⟩
  long := ⟨0, 0⟩
  knuth := KnuthFile.reset d
  env := env

/-- The requester the model starts with: nothing offered, nothing delivered, reset released, every response taken as it
comes (log 4). -/
def Requester.initial : Requester where
  offers := []
  willTake := true
  rst := false
  delivered := []

/-- The machine right after reset (R36, R222), with the default parameters of R7 and R8. -/
def State.reset : State := State.afterReset defaultEngine defaultDigitBits Requester.initial

end Sys2Proof.Machine
end

