-- ==== Sys2Proof/Machine/Ops.lean ====
section
/-! DEFINITION. The named operations over the registers and the interface: writing the result latches, raising the one
error, and the accept, complete, deliver and reset steps (`10_state.md` R26 to R29, R35; `60_exceptions.md` R202;
`70_reset_and_hazards.md` R220). -/

namespace Sys2Proof.Machine

/-! ### Result latches -/

/-- `ST <- OK`. -/
def ResultLatches.ok (l : ResultLatches) : ResultLatches := { l with st := statusOk }

/-- `raise DivisionByZero` (`60_exceptions.md` R202): `ST <- DIVISION_BY_ZERO` and no other result latch is written.
It is the block's one exception: nothing is saved, no mode changes and control goes nowhere (R209), so there is no
return from it. The compute step then completes. -/
def ResultLatches.raiseDivisionByZero (l : ResultLatches) : ResultLatches := { l with st := statusDivisionByZero }

/-- `Q <- v`. -/
def ResultLatches.writeQ (l : ResultLatches) (v : Wide) : ResultLatches := { l with q := v }

/-- `Q.limb[0] <- v`; `Q.limb[1..3]` are not written (R105, R106). -/
def ResultLatches.writeQLimb0 (l : ResultLatches) (v : Limb) : ResultLatches := { l with q := setLimb0 l.q v }

/-- `R <- v`. -/
def ResultLatches.writeR (l : ResultLatches) (v : Wide) : ResultLatches := { l with r := v }

/-- `FL.CARRY <- c`. -/
def ResultLatches.writeCarry (l : ResultLatches) (c : Bit) : ResultLatches := { l with fl := setFlagCarry l.fl c }

/-- `FL.CMP <- ` the code of `o` (R108). -/
def ResultLatches.writeCmp (l : ResultLatches) (o : Ordering) : ResultLatches := { l with fl := setFlagCmp l.fl (cmpCode o) }

/-- `FL.ZERO <- z`. -/
def ResultLatches.writeZero (l : ResultLatches) (z : Bit) : ResultLatches := { l with fl := setFlagZero l.fl z }

/-- The complete step (R35 step 3): the result latches have been written, `IFS <- RESP`. -/
def State.complete (s : State) (res : ResultLatches) : State := { s with ifs := .resp, res := res }

/-! ### Accept -/

/-- The header the operand latches stand for: `OP` is `req_hdr[15:12]`, `AUX` is `req_hdr[9:0]`, and `req_hdr[11:10]`
was `0b00`, or the request would not have been accepted (R26, R74; log 11). -/
def latchedHeader (l : OperandLatches) : Header := headerOfFields l.op 0 l.aux

/-- The operation selected by `OP` and `AUX` (R35 step 2). -/
def latchedOperation (s : State) : Option Instr := (decode (latchedHeader s.opnd)).instr?

/-- The latches as one request leaves them: all four are written in one step (R35 step 1, `20_memory.md` R56). -/
def latchRequest (r : Request) : OperandLatches where
  op := headerOp r.hdr
  aux := headerAux r.hdr
  a := r.a
  b := r.b

/-- The accept step (R35 step 1) on the request at the head of the offers, with the rest still to be offered. -/
def State.accept (s : State) (r : Request) (rest : List Request) : State :=
  { s with ifs := .busy, opnd := latchRequest r, env := { s.env with offers := rest } }

/-- What the block does while `IFS = IDLE`: it waits when nothing is offered (log 5), accepts an offered request whose
header decodes, and refuses one whose header is reserved (`60_exceptions.md` R205). -/
def stepIdle (s : State) : Host.Outcome State Fault Refusal :=
  match s.env.offers with
  | [] => .next s
  | r :: rest =>
    match decode r.hdr with
    | .operation _ => .next (s.accept r rest)
    | .reserved why => .refused (.reservedHeader why)

/-! ### Deliver -/

/-- The payload an operation's result latches carry (`30_encoding.md` R76). -/
def readPayload (i : Instr) (l : ResultLatches) : Except Fault Payload :=
  match i with
  | .adcl _ | .sbbl _ => .ok (.limbCarry (limb l.q 0) (flagCarry l.fl))
  | .cmpw =>
    match cmpOfCode (flagCmp l.fl) with
    | some o => .ok (.ordering o)
    | none => .error .orderingNeverProduced
  | .shlw _ | .shrw _ => .ok (.wide l.q)
  | .iszw => .ok (.zero (flagZero l.fl))
  | .divrem => .ok (.divided l.q l.r)
  | .addw _ | .subw _ => .ok (.wideCarry l.q (flagCarry l.fl))

/-- The response of an operation, as the result latches drive it (R25, R29, R35 step 4). -/
def readResponse (i : Instr) (l : ResultLatches) : Except Fault Response :=
  if l.st = statusOk then (readPayload i l).map Response.ok
  else if l.st = statusDivisionByZero then .ok .divisionByZero
  else .error .statusNeverProduced

/-- The response the block offers in `RESP`. -/
def offeredResponse (s : State) : Except Fault Response :=
  match latchedOperation s with
  | some i => readResponse i s.res
  | none => .error .noOperationLatched

/-- The deliver step (R35 step 4): the requester reads the response, `IFS <- IDLE`. -/
def State.deliver (s : State) (r : Response) : State :=
  { s with ifs := .idle, env := { s.env with delivered := s.env.delivered ++ [r] } }

/-- What the block does while `IFS = RESP`: the response stays until the requester takes it
(`70_reset_and_hazards.md` R225). -/
def stepResp (s : State) : Host.Outcome State Fault Refusal :=
  if s.env.willTake then
    match offeredResponse s with
    | .ok r => .next (s.deliver r)
    | .error e => .fault e
  else .next s

/-! ### Reset -/

/-- The reset step (`70_reset_and_hazards.md` R220, R221): `IFS <- IDLE`, the operation in progress is abandoned and
nothing of it survives. Registers the spec leaves unspecified take the values of log 1 (log 2). The parameters are
those the block was built with; what the requester offers and has taken is its own; the reset input is released. -/
def State.applyReset (s : State) : State :=
  State.afterReset s.engine s.digitBits { s.env with rst := false }

/-! ### Placing an operation -/

/-- The state in which the next step runs the operation of header `h`. A header that decodes stands in the operand
latches of a busy block, as accept leaves it; a reserved header, which no latch can hold, stands offered to an idle one,
and the next step refuses it (log 13). -/
def State.placeHeader (s : State) (h : Header) : State :=
  match decode h with
  | .operation _ =>
    { s with ifs := .busy, opnd := { s.opnd with op := headerOp h, aux := headerAux h }, env := { s.env with rst := false } }
  | .reserved _ =>
    { s with ifs := .idle, env := { s.env with rst := false, offers := ⟨h, s.opnd.a, s.opnd.b⟩ :: s.env.offers } }

end Sys2Proof.Machine
end

