-- ==== Sys2Proof/Machine/Engine.lean ====
section
/-! DEFINITION. What the sequencer of `DIVREM` reads and writes, and phase `K0`, which both engines share
(`42_knuth_d_engine.md` R153, R176). -/

namespace Sys2Proof.Machine

open Sys2Proof.Config

/-- The registers the compute step of `DIVREM` reads and writes, for an engine of `nd` digits of `wd` bits. -/
structure Frame (wd nd : Nat) where
  a : Wide
  b : Wide
  res : ResultLatches
  seq : Sequencer
  long : LongRegs
  k : KnuthRegs wd nd
deriving DecidableEq, Repr

variable {wd nd : Nat}

/-- Control passes to phase `p`. -/
def Frame.goto (f : Frame wd nd) (p : Phase) : Frame wd nd := { f with seq := { f.seq with ph := p } }

/-- `K0`, the checks (R153): the zero divisor first (`41_divide.md` R133), then the fast path, then the engine's own
phases. -/
def phaseK0 (e : Engine) (f : Frame wd nd) : Frame wd nd :=
  if isZero f.b then { f with res := f.res.raiseDivisionByZero }.goto .k9
  else if compareWide f.a f.b = .lt then
    { f with res := ((f.res.writeQ 0).writeR f.a).ok }.goto .k9
  else
    match e with
    | .knuthD => f.goto .k1
    | .longDiv => f.goto .longInit

end Sys2Proof.Machine
end

