-- ==== Sys2Proof/Machine/KnuthD.lean ====
section
/-! DEFINITION. The Algorithm D engine (`42_knuth_d_engine.md`), phase by phase, for `nd` digits of `wd` bits. `B` of that
file is `2 ^ wd`, `n` is `NSIG`. Digit arrays are lists, least significant digit first. -/

namespace Sys2Proof.Machine

variable {wd nd : Nat}

/-! ### The digit functions -/

/-- The loop of `div2by1` (R157) with `k` steps to go, on the dividend `x`, the divisor `d` and the running `(q, r)`. -/
def div2by1Loop (x d : Nat) : Nat → Nat × Nat → Nat × Nat
  | 0, qr => qr
  | k + 1, (q, r) =>
    let r' := 2 * r + (x / 2 ^ k) % 2
    if d ≤ r' then div2by1Loop x d k (q + 2 ^ k, r' - d) else div2by1Loop x d k (q, r')

/-- `div2by1(WD; hi, lo, d)` (R157), by shift and subtract; nothing outside its precondition
(`93_implementation_defined.md` U6). -/
def div2by1? (hi lo d : BitVec wd) : Option (BitVec (wd + 1) × BitVec (wd + 1)) :=
  if 2 ^ wd ≤ 2 * d.toNat ∧ hi.toNat ≤ d.toNat then
    let qr := div2by1Loop (hi.toNat * 2 ^ wd + lo.toNat) d.toNat (2 * wd) (0, 0)
    some (BitVec.ofNat (wd + 1) qr.1, BitVec.ofNat (wd + 1) qr.2)
  else none

/-- The correction loop of `D3B` (R159) on `(QHAT, RHAT)`, with `base = B`, `v1 = V[n-1]`, and the second digits `v2`
and `u2`. The loop is defined by its test: at `QHAT = 0` the test is false. -/
def correctTrial (base v1 v2 u2 : Nat) : Nat → Nat → Nat × Nat
  | 0, rhat => (0, rhat)
  | q + 1, rhat =>
    if base ≤ q + 1 ∨ rhat * base + u2 < (q + 1) * v2 then
      if rhat + v1 < base then correctTrial base v1 v2 u2 q (rhat + v1) else (q, rhat + v1)
    else (q + 1, rhat)

/-- The digit-serial multiply and subtract of `D4` (R161), on the digits of `U` from position `J` up and the digits
`V[0..n-1]`: `k` is the running high part of the product, `bw` the running borrow. After the last digit of `V` one more
digit of `U` takes the carry, and the digits above it are as they were. -/
def mulSub (qhat : BitVec wd) : List (BitVec wd) → List (BitVec wd) → BitVec wd → Bit → List (BitVec wd) × Bit
  | [], _, _, bw => ([], bw)
  | u :: us, [], k, bw => let (d, bw') := sbb u k bw; (d :: us, bw')
  | u :: us, v :: vs, k, bw =>
    let (plo, phi) := mulDigits qhat v
    let (t, c1) := adc plo k 0
    let (d, bw') := sbb u t bw
    let (ds, bw'') := mulSub qhat us vs (phi + c1.setWidth wd) bw'
    (d :: ds, bw'')

/-- The add-back of `D6` (R163), on the digits of `U` from position `J` up and the digits `V[0..n-1]`. The carry out of
digit `J + n` is discarded. -/
def addBack : List (BitVec wd) → List (BitVec wd) → Bit → List (BitVec wd)
  | [], _, _ => []
  | u :: us, [], c => (adc u 0 c).1 :: us
  | u :: us, v :: vs, c => let (d, c') := adc u v c; d :: addBack us vs c'

/-! ### The phases -/

/-- `K1` (R154): count the significant digits of the divisor. -/
def phaseK1 (f : Frame wd nd) : Frame wd nd :=
  { f with k := { f.k with nsig := significantDigits (digitsOf wd nd f.b) } }.goto .d1

/-- `D1` (R155): normalize. -/
def phaseD1 (f : Frame wd nd) : Except Fault (Frame wd nd) :=
  match clz? (digit (digitsOf wd nd f.b) (f.k.nsig - 1)) with
  | none => .error .clzOfZero
  | some s =>
    let top : BitVec wd := if s = 0 then 0 else digit (digitsOf wd nd (shiftRight f.a (512 - s))) 0
    .ok ({ f with k := { f.k with
      s := s
      v := digitsOf wd nd (shiftLeft f.b s)
      u := digitsOf wd nd (shiftLeft f.a s) ++ [top]
      qa := List.replicate nd 0 } }.goto .d2)

/-- `D2` (R156): `J <- ND - NSIG`. -/
def phaseD2 (f : Frame wd nd) : Frame wd nd :=
  { f with seq := { f.seq with j := nd - f.k.nsig, ph := .d3a } }

/-- `D3A` (R158): the trial quotient. The loop index of `div2by1` stops at `2*WD - 1` (`10_state.md` R31). -/
def phaseD3A (f : Frame wd nd) : Except Fault (Frame wd nd) :=
  let j := f.seq.j
  let n := f.k.nsig
  match div2by1? (digit f.k.u (j + n)) (digit f.k.u (j + n - 1)) (digit f.k.v (n - 1)) with
  | none => .error .div2by1Precondition
  | some (q, r) =>
    .ok { f with k := { f.k with qhat := q, rhat := r }, seq := { f.seq with ph := .d3b, i := 2 * wd - 1 } }

/-- `D3B` (R159): the correction loop. -/
def phaseD3B (f : Frame wd nd) : Frame wd nd :=
  let j := f.seq.j
  let n := f.k.nsig
  let v2 : BitVec wd := if 2 ≤ n then digit f.k.v (n - 2) else 0
  let u2 : BitVec wd := if 2 ≤ n then digit f.k.u (j + n - 2) else 0
  let qr := correctTrial (2 ^ wd) (digit f.k.v (n - 1)).toNat v2.toNat u2.toNat f.k.qhat.toNat f.k.rhat.toNat
  { f with k := { f.k with qhat := BitVec.ofNat (wd + 1) qr.1, rhat := BitVec.ofNat (wd + 1) qr.2 } }.goto .d4

/-- `D4` (R160, R161): multiply and subtract at position `J`. `QHAT` is one digit here. -/
def phaseD4 (f : Frame wd nd) : Frame wd nd :=
  let j := f.seq.j
  let ub := mulSub (f.k.qhat.setWidth wd) (f.k.u.drop j) (f.k.v.take f.k.nsig) 0 0
  { f with k := { f.k with u := f.k.u.take j ++ ub.1, bw := ub.2 } }.goto .d5

/-- `D5` (R162): store the quotient digit, test the borrow. -/
def phaseD5 (f : Frame wd nd) : Frame wd nd :=
  { f with k := { f.k with qa := f.k.qa.set f.seq.j (f.k.qhat.setWidth wd) } }.goto (if f.k.bw = 1 then .d6 else .d7)

/-- `D6` (R163): add the divisor back once and lower the quotient digit by one. -/
def phaseD6 (f : Frame wd nd) : Frame wd nd :=
  let j := f.seq.j
  { f with k := { f.k with
    u := f.k.u.take j ++ addBack (f.k.u.drop j) (f.k.v.take f.k.nsig) 0
    qa := f.k.qa.set j (digit f.k.qa j - 1) } }.goto .d7

/-- `D7` (R164): loop on `J`. -/
def phaseD7 (f : Frame wd nd) : Frame wd nd :=
  if f.seq.j = 0 then f.goto .d8 else { f with seq := { f.seq with j := f.seq.j - 1, ph := .d3a } }

/-- `D8` (R165): un-normalize the remainder; `U[ND]` is not used. -/
def phaseD8 (f : Frame wd nd) : Frame wd nd :=
  { f with res := ((f.res.writeR (shiftRight (ofDigits (f.k.u.take nd)) f.k.s)).writeQ (ofDigits f.k.qa)).ok }.goto .k9

end Sys2Proof.Machine
end

