-- ==== Sys2Proof/Machine/LongDiv.lean ====
section
/-! DEFINITION. The reference algorithm, binary long division by shift and subtract (`41_divide.md` R134), as a function
and as the sequencer of `ENGINE = LONGDIV` (`42_knuth_d_engine.md` R176). -/

namespace Sys2Proof.Machine

/-- One iteration of step 3 of R134, on `(QUO, REM)` at index `I`. -/
def longDivIteration (a b : Wide) (i : Nat) (qr : Wide × Wide) : Wide × Wide :=
  let k := 511 - i
  let rem := writeBit (shiftLeft qr.2 1) 0 (a.getLsbD k)
  if compareWide rem b ≠ .lt then (writeBit qr.1 k true, (subWide rem b 0).1) else (qr.1, rem)

/-- `QUO` and `REM` after the first `n` iterations of step 3 of R134. -/
def longDivAfter (a b : Wide) : Nat → Wide × Wide
  | 0 => (0, 0)
  | n + 1 => longDivIteration a b n (longDivAfter a b n)

/-- `divide_ref(A, B) -> (QUO, REM)` (R134), for a nonzero divisor. -/
def divideRef (a b : Wide) : Wide × Wide :=
  if compareWide a b = .lt then (0, a) else longDivAfter a b 512

variable {wd nd : Nat}

/-- The start of step 3: `REM` and `QUO` are zero and `I` is 0. -/
def phaseLongInit (f : Frame wd nd) : Frame wd nd :=
  { f with long := ⟨0, 0⟩, seq := { f.seq with ph := .longIter, i := 0 } }

/-- One iteration of step 3 as a phase step (R176). `I` counts up and stops at 511 (`10_state.md` R31). -/
def phaseLongIter (f : Frame wd nd) : Frame wd nd :=
  let qr := longDivIteration f.a f.b f.seq.i (f.long.quo, f.long.rem)
  let f' := { f with long := ⟨qr.2, qr.1⟩ }
  if f.seq.i < 511 then { f' with seq := { f'.seq with i := f'.seq.i + 1 } } else f'.goto .longDone

/-- Steps 4 and 5: `Q <- QUO`, `R <- REM`, `ST <- OK` (R176). -/
def phaseLongDone (f : Frame wd nd) : Frame wd nd :=
  { f with res := ((f.res.writeQ f.long.quo).writeR f.long.rem).ok }.goto .k9

end Sys2Proof.Machine
end

