-- ==== Sys2Proof/Machine/Divide.lean ====
section
/-! DEFINITION. `DIVREM` (`41_divide.md` R130): the sequencer that runs the phases of the block's engine from `K0` to
`K9` (`42_knuth_d_engine.md` R152, R176). The compute step is one step at the interface (`93_implementation_defined.md`
U11; log 7). -/

namespace Sys2Proof.Machine

open Sys2Proof.Config

variable {wd nd : Nat}

/-- One phase step: the phase `PH` names (R152, R176). -/
def phaseStep (e : Engine) (f : Frame wd nd) : Except Fault (Frame wd nd) :=
  match f.seq.ph with
  | .k0 => .ok (phaseK0 e f)
  | .k1 => .ok (phaseK1 f)
  | .d1 => phaseD1 f
  | .d2 => .ok (phaseD2 f)
  | .d3a => phaseD3A f
  | .d3b => .ok (phaseD3B f)
  | .d4 => .ok (phaseD4 f)
  | .d5 => .ok (phaseD5 f)
  | .d6 => .ok (phaseD6 f)
  | .d7 => .ok (phaseD7 f)
  | .d8 => .ok (phaseD8 f)
  | .k9 => .ok f
  | .longInit => .ok (phaseLongInit f)
  | .longIter => .ok (phaseLongIter f)
  | .longDone => .ok (phaseLongDone f)

/-- Phase steps until `K9`, at most `fuel` of them. -/
def runPhases (e : Engine) : Nat → Frame wd nd → Except Fault (Frame wd nd)
  | 0, f => if f.seq.ph = .k9 then .ok f else .error .computeDidNotEnd
  | fuel + 1, f =>
    if f.seq.ph = .k9 then .ok f
    else
      match phaseStep e f with
      | .ok f' => runPhases e fuel f'
      | .error r => .error r

/-- A bound on the phase steps of one compute step: `K0`, the start, 512 iterations and the end of the long division
are 515, and the 5 phases outside and the 6 inside the loop of Algorithm D, at most 8 times, are 53
(`70_reset_and_hazards.md` R227). -/
def maxPhaseSteps : Nat := 515

/-- The registers of the compute step at its start: `PH` is `K0`. -/
def State.frame (s : State) (k : KnuthRegs wd nd) : Frame wd nd where
  a := s.opnd.a
  b := s.opnd.b
  res := s.res
  seq := { s.seq with ph := .k0 }
  long := s.long
  k := k

/-- The state with the registers of a finished compute step. -/
def State.ofFrame (s : State) (f : Frame wd nd) (file : KnuthRegs wd nd → KnuthFile) : State :=
  { s with seq := f.seq, long := f.long, knuth := file f.k }.complete f.res

/-- The compute step of `DIVREM` on a register file of `nd` digits of `wd` bits, completed by `K9` (R166). -/
def runDivrem (s : State) (k : KnuthRegs wd nd) (file : KnuthRegs wd nd → KnuthFile) :
    Host.Outcome State Fault Refusal :=
  match runPhases s.engine maxPhaseSteps (s.frame k) with
  | .ok f => .next (s.ofFrame f file)
  | .error r => .fault r

/-- `DIVREM`, divide with remainder (R130). -/
def execDivrem (s : State) : Host.Outcome State Fault Refusal :=
  match s.knuth with
  | .digits128 k => runDivrem s k .digits128
  | .digits64 k => runDivrem s k .digits64

end Sys2Proof.Machine
end

