-- ==== Sys2Proof/Machine/LimbOps.lean ====
section
/-! DEFINITION. The operations on one limb (`40_limb_primitives.md` section 2). -/

namespace Sys2Proof.Machine

/-- `ADCL`, add two limbs with carry (R105). -/
def execAdcl (cin : Bit) (s : State) : Host.Outcome State Fault Refusal :=
  let r := adc (limb s.opnd.a 0) (limb s.opnd.b 0) cin
  .next (s.complete ((s.res.writeQLimb0 r.1).writeCarry r.2).ok)

/-- `SBBL`, subtract two limbs with borrow (R106). -/
def execSbbl (bin : Bit) (s : State) : Host.Outcome State Fault Refusal :=
  let r := sbb (limb s.opnd.a 0) (limb s.opnd.b 0) bin
  .next (s.complete ((s.res.writeQLimb0 r.1).writeCarry r.2).ok)

end Sys2Proof.Machine
end

