-- ==== Sys2Proof/Machine/WideOps.lean ====
section
/-! DEFINITION. The operations on wide values other than `DIVREM` (`40_limb_primitives.md` sections 3 to 6). -/

namespace Sys2Proof.Machine

/-- `CMPW`, compare two wide values (R108). -/
def execCmpw (s : State) : Host.Outcome State Fault Refusal :=
  .next (s.complete (s.res.writeCmp (compareWide s.opnd.a s.opnd.b)).ok)

/-- `SHLW`, shift a wide value left (R110). -/
def execShlw (bits : Aux) (s : State) : Host.Outcome State Fault Refusal :=
  .next (s.complete (s.res.writeQ (shiftLeft s.opnd.a bits.toNat)).ok)

/-- `SHRW`, shift a wide value right (R112). -/
def execShrw (bits : Aux) (s : State) : Host.Outcome State Fault Refusal :=
  .next (s.complete (s.res.writeQ (shiftRight s.opnd.a bits.toNat)).ok)

/-- `ISZW`, test a wide value for zero (R114). -/
def execIszw (s : State) : Host.Outcome State Fault Refusal :=
  .next (s.complete (s.res.writeZero (BitVec.ofBool (isZero s.opnd.a))).ok)

/-- `ADDW`, add two wide values with carry (R117). -/
def execAddw (cin : Bit) (s : State) : Host.Outcome State Fault Refusal :=
  let r := addWide s.opnd.a s.opnd.b cin
  .next (s.complete ((s.res.writeQ r.1).writeCarry r.2).ok)

/-- `SUBW`, subtract two wide values with borrow (R118). -/
def execSubw (bin : Bit) (s : State) : Host.Outcome State Fault Refusal :=
  let r := subWide s.opnd.a s.opnd.b bin
  .next (s.complete ((s.res.writeQ r.1).writeCarry r.2).ok)

end Sys2Proof.Machine
end

