-- ==== Sys2Proof/Machine/Dispatch.lean ====
section
/-! DEFINITION. The compute step (`10_state.md` R35 step 2) by operation: one arm per constructor of Instr. -/

namespace Sys2Proof.Machine

def exec (i : Instr) (s : State) : Host.Outcome State Fault Refusal :=
  match i with
  | .adcl cin => Sys2Proof.Machine.execAdcl cin s
  | .sbbl bin => Sys2Proof.Machine.execSbbl bin s
  | .cmpw => Sys2Proof.Machine.execCmpw s
  | .shlw bits => Sys2Proof.Machine.execShlw bits s
  | .shrw bits => Sys2Proof.Machine.execShrw bits s
  | .iszw => Sys2Proof.Machine.execIszw s
  | .divrem => Sys2Proof.Machine.execDivrem s
  | .addw cin => Sys2Proof.Machine.execAddw cin s
  | .subw bin => Sys2Proof.Machine.execSubw bin s

end Sys2Proof.Machine
end

