-- ==== Sys2Proof/Machine/Step.lean ====
section
/-! DEFINITION. One step of the machine: the reset input first, then the step `IFS` enables (`10_state.md` R23, R35;
`70_reset_and_hazards.md` R220). -/

namespace Sys2Proof.Machine

/-- One step. `IDLE`: accept, or wait. `BUSY`: compute and complete. `RESP`: deliver, or wait. -/
def step (s : State) : Host.Outcome State Fault Refusal :=
  if s.env.rst then .next s.applyReset
  else
    match s.ifs with
    | .idle => stepIdle s
    | .busy =>
      match latchedOperation s with
      | some i => exec i s
      | none => .fault .noOperationLatched
    | .resp => stepResp s

/-- The state with the operation of a table word placed so that the next step runs it (log 13). -/
def State.withFetchWord (s : State) (nbits w : Nat) : State := s.placeHeader (headerOfTableWord nbits w)

end Sys2Proof.Machine
end

