-- ==== Sys2Proof/Safety.lean ====
section
/-! DEFINITION. The terms claims are stated in: the response the spec gives each request, as a formula over unbounded
integers; what an operation leaves alone; and the invariants of the machine. -/

namespace Sys2Proof.Machine

open Sys2Proof.Config

/-! ### The response of a request -/

/-- The carry-out or borrow-out flag of a condition. -/
def bitOf (p : Prop) [Decidable p] : Bit := if p then 1 else 0

/-- The response the spec gives a request (`30_encoding.md` R76), from the value-level definitions: R100, R101 for one
limb, R107, R109, R111, R113, the laws of R115 and R116, and R131 to R133 for the division. It is a function of the
operation and the two operands and of nothing else (`10_state.md` R33). -/
def answer (i : Instr) (a b : Wide) : Response :=
  match i with
  | .adcl cin =>
    let t := (limb a 0).toNat + (limb b 0).toNat + cin.toNat
    .ok (.limbCarry (BitVec.ofNat 128 t) (bitOf (2 ^ 128 ≤ t)))
  | .sbbl bin =>
    .ok (.limbCarry (limb a 0 - limb b 0 - bin.setWidth 128) (bitOf ((limb a 0).toNat < (limb b 0).toNat + bin.toNat)))
  | .cmpw => .ok (.ordering (compare a.toNat b.toNat))
  | .shlw bits => .ok (.wide (a <<< bits.toNat))
  | .shrw bits => .ok (.wide (a >>> bits.toNat))
  | .iszw => .ok (.zero (bitOf (a = 0)))
  | .divrem => if b = 0 then .divisionByZero else .ok (.divided (a / b) (a % b))
  | .addw cin =>
    let t := a.toNat + b.toNat + cin.toNat
    .ok (.wideCarry (BitVec.ofNat 512 t) (bitOf (2 ^ 512 ≤ t)))
  | .subw bin => .ok (.wideCarry (a - b - bin.setWidth 512) (bitOf (a.toNat < b.toNat + bin.toNat)))

/-- The response the spec gives a request, none when its header is reserved (`60_exceptions.md` R205). -/
def answerRequest (r : Request) : Option Response := (decode r.hdr).instr?.map fun i => answer i r.a r.b

/-! ### Frames -/

/-- Everything but `IFS` and the result latches is as it was: what the eight primitive operations leave alone. -/
def SameButResults (s t : State) : Prop :=
  t.engine = s.engine ∧ t.opnd = s.opnd ∧ t.seq = s.seq ∧ t.long = s.long ∧ t.knuth = s.knuth ∧ t.env = s.env

/-- Everything but `IFS`, the result latches and the hidden registers is as it was: what `DIVREM` leaves alone. -/
def SameButHidden (s t : State) : Prop :=
  t.engine = s.engine ∧ t.digitBits = s.digitBits ∧ t.opnd = s.opnd ∧ t.env = s.env

/-! ### Which headers are reserved -/

/-- The conditions of `30_encoding.md` R74 and R72, on the fields of a header. -/
def reservedByRule (h : Header) : Prop :=
  let op := (headerOp h).toNat
  let aux := (headerAux h).toNat
  op = 0x0 ∨ (0xA ≤ op ∧ op ≤ 0xF) ∨ headerRsv h ≠ 0 ∨
    (op ∈ [0x1, 0x2, 0x8, 0x9] ∧ 2 ≤ aux) ∨ (op ∈ [0x3, 0x6, 0x7] ∧ aux ≠ 0)

/-! ### Invariants -/

/-- The interface: the latches of a block that is not idle hold an operation, and a completed response is one the wire
codes allow: `OK`, or `DIVISION_BY_ZERO` for `DIVREM` with a zero divisor alone (R26, R29, R77, R78,
`60_exceptions.md` R200). -/
def InterfaceInv (s : State) : Prop :=
  (s.ifs ≠ .idle → (latchedOperation s).isSome) ∧
  (s.ifs = .resp → (offeredResponse s).toOption.isSome) ∧
  (s.ifs = .resp → s.res.st = statusDivisionByZero → latchedOperation s = some .divrem ∧ s.opnd.b = 0)

/-- The response offered in `RESP` is the one the spec gives the latched request (R25, R33, `30_encoding.md` R76). -/
def AnswerInv (s : State) : Prop :=
  s.ifs = .resp → ∃ i, latchedOperation s = some i ∧ offeredResponse s = .ok (answer i s.opnd.a s.opnd.b)

/-- The Algorithm D registers have their shapes and ranges (R31, R32). -/
def KnuthRegs.InRange {wd nd : Nat} (k : KnuthRegs wd nd) : Prop :=
  k.u.length = nd + 1 ∧ k.v.length = nd ∧ k.qa.length = nd ∧ (1 ≤ k.nsig ∧ k.nsig ≤ nd) ∧ k.s < wd

/-- The register file has its shapes and ranges. -/
def KnuthFile.InRange : KnuthFile → Prop
  | .digits128 k => k.InRange
  | .digits64 k => k.InRange

/-- Every hidden register has its shape and range: those above, `J` in `0..DIGITS-1`, `I` at most 511 (R31, R32). -/
def RegisterRanges (s : State) : Prop :=
  s.knuth.InRange ∧ s.seq.j < s.digitBits.count ∧ s.seq.i ≤ 511

/-- A block ready to serve requests: idle, not in reset, and its requester takes every response. -/
def Serving (s : State) : Prop := s.ifs = .idle ∧ s.env.rst = false ∧ s.env.willTake = true

end Sys2Proof.Machine
end

