-- ==== Sys2Proof/Certificates/Slice0/Obligations.lean ====
section
/-! DEFINITION. The statements for the provers, by subject: encoding, the interface, the operations on limbs and wide
values, `DIVREM`, the engines inside it, and the rules of the whole machine. Unless its docstring says otherwise, a
statement holds in every state, reached or not, for both engines and both digit widths. -/

open Sys2Proof Sys2Proof.Machine Sys2Proof.Config

/-! ### Encoding -/

/-- Headers written out from the table of `95_test_vectors.md` section 2.1 decode to the operations named there. -/
def Obligations.SpecHeadersDecode : Prop :=
  decode 0x1001 = .operation (.adcl 1) ∧ decode 0x2001 = .operation (.sbbl 1) ∧ decode 0x3000 = .operation .cmpw ∧
  decode 0x41FF = .operation (.shlw 511) ∧ decode 0x5080 = .operation (.shrw 128) ∧ decode 0x6000 = .operation .iszw ∧
  decode 0x7000 = .operation .divrem ∧ decode 0x8001 = .operation (.addw 1) ∧ decode 0x9001 = .operation (.subw 1) ∧
  decode 0x1002 = .reserved .auxIllegal ∧ decode 0x7C00 = .reserved .rsvNonzero ∧
  decode 0xA000 = .reserved .opUnassigned

/-- R80: the headers of the operations, decode and encode are inverse to each other, and of the 65536 headers 2059
decode to an operation. -/
def Obligations.DecodeEncodeInverse : Prop :=
  (∀ c, (encode (.adcl c)).toNat = 0x1000 + c.toNat) ∧ (∀ c, (encode (.sbbl c)).toNat = 0x2000 + c.toNat) ∧
  (encode .cmpw).toNat = 0x3000 ∧
  (∀ k, (encode (.shlw k)).toNat = 0x4000 + k.toNat) ∧ (∀ k, (encode (.shrw k)).toNat = 0x5000 + k.toNat) ∧
  (encode .iszw).toNat = 0x6000 ∧ (encode .divrem).toNat = 0x7000 ∧
  (∀ c, (encode (.addw c)).toNat = 0x8000 + c.toNat) ∧ (∀ c, (encode (.subw c)).toNat = 0x9000 + c.toNat) ∧
  (∀ i, decode (encode i) = .operation i) ∧
  (∀ h i, decode h = .operation i → encode i = h) ∧
  ((List.range 65536).countP fun h => (decode (BitVec.ofNat 16 h)).instr?.isSome) = 2059

/-- R73: the rows of the opcode map that select a header are the row of the operation it decodes to, alone, and none
when it is reserved. -/
def Obligations.RowsSelectWhatDecodeReturns : Prop :=
  ∀ h : Header, (opcodeRows.filter (·.selects h)).map (·.mnemonic) =
    match decode h with
    | .operation i => [i.mnemonic]
    | .reserved _ => []

/-- R70: the places of the three fields in the request vector, and the vector holds exactly them. -/
def Obligations.RequestVectorHoldsItsFields : Prop :=
  (∀ r : Request, r.toVector.extractLsb' 1024 16 = r.hdr ∧ r.toVector.extractLsb' 512 512 = r.b ∧
    r.toVector.extractLsb' 0 512 = r.a ∧ Request.ofVector r.toVector = r) ∧
  (∀ v : ReqVector, (Request.ofVector v).toVector = v)

/-! ### The interface -/

/-- R74, R205: which headers are reserved, and that an idle block offered one refuses it whatever its operands are; a
refusal has no next state, so nothing is latched. -/
def Obligations.ReservedHeadersAreRefused : Prop :=
  (∀ h, (∃ why, decode h = .reserved why) ↔ reservedByRule h) ∧
  ∀ s r rest, s.env.rst = false → s.ifs = .idle → s.env.offers = r :: rest → reservedByRule r.hdr →
    ∃ why, step s = .refused (.reservedHeader why)

/-- R35 step 1, R26, R56: an idle block accepts an offered request whose header decodes, latches all of it at once, and
changes nothing else; the latches then stand for the same operation. -/
def Obligations.AcceptLatchesTheRequest : Prop :=
  ∀ s r rest i, s.env.rst = false → s.ifs = .idle → s.env.offers = r :: rest → decode r.hdr = .operation i →
    ∃ t, step s = .next t ∧ t.ifs = .busy ∧
      t.opnd.op = r.hdr.extractLsb' 12 4 ∧ t.opnd.aux = r.hdr.extractLsb' 0 10 ∧ t.opnd.a = r.a ∧ t.opnd.b = r.b ∧
      latchedOperation t = some i ∧
      t.env.offers = rest ∧ t.env.willTake = s.env.willTake ∧ t.env.rst = false ∧ t.env.delivered = s.env.delivered ∧
      t.engine = s.engine ∧ t.res = s.res ∧ t.seq = s.seq ∧ t.long = s.long ∧ t.knuth = s.knuth

/-- R35 step 2: the step of a busy block is `exec` of the operation its latches decode to, with nothing added (the two bits that are
not latched are 0, log 11). -/
def Obligations.BusyStepRunsTheLatchedOperation : Prop :=
  ∀ s i, s.env.rst = false → s.ifs = .busy → decode (latchedHeader s.opnd) = .operation i → step s = exec i s

/-- The operation of a table word, once placed, is what the next step runs, and placing it changes no register but `OP`,
`AUX` and `IFS`. How it is placed is the model's choice (log 13). -/
def Obligations.PlacedOperationRuns : Prop :=
  ∀ (s : State) (nbits w : Nat) (i : Instr), decodeTableWord nbits w = some i →
    step (s.withFetchWord nbits w) = exec i (s.withFetchWord nbits w) ∧
    (s.withFetchWord nbits w).opnd.a = s.opnd.a ∧ (s.withFetchWord nbits w).opnd.b = s.opnd.b ∧
    (s.withFetchWord nbits w).res = s.res ∧ (s.withFetchWord nbits w).seq = s.seq ∧
    (s.withFetchWord nbits w).long = s.long ∧ (s.withFetchWord nbits w).knuth = s.knuth ∧
    (s.withFetchWord nbits w).engine = s.engine

/-- R206: while the block is not idle an offered request is held: it is not refused and it stays offered, unchanged. -/
def Obligations.OffersAreHeldUntilIdle : Prop :=
  ∀ s, s.env.rst = false → s.ifs ≠ .idle →
    (∀ why, step s ≠ .refused why) ∧ ∀ t, step s = .next t → t.env.offers = s.env.offers

/-- R35 step 4: a requester that takes the response gets the one the latches drive, the block is idle again, and nothing
else changes. -/
def Obligations.DeliverHandsTheResponseOver : Prop :=
  ∀ s r, s.env.rst = false → s.ifs = .resp → s.env.willTake = true → offeredResponse s = .ok r →
    ∃ t, step s = .next t ∧ t.ifs = .idle ∧ t.env.delivered = s.env.delivered ++ [r] ∧
      t.env.offers = s.env.offers ∧ t.env.willTake = s.env.willTake ∧ t.env.rst = s.env.rst ∧
      t.engine = s.engine ∧ t.opnd = s.opnd ∧ t.res = s.res ∧ t.seq = s.seq ∧ t.long = s.long ∧ t.knuth = s.knuth

/-- R225: a completed response stays, however long the requester does not take it. That waiting is a step that changes
nothing is the model's choice (log 5). -/
def Obligations.ResponseStaysUntilTaken : Prop :=
  ∀ (n : Nat) (s : State), s.env.rst = false → s.ifs = .resp → s.env.willTake = false → Host.Core.run Sys2Proof.core n s = .next s

/-- R23: the only transitions of `IFS`. A step that changes nothing is the model's way of waiting (log 5). -/
def Obligations.OnlyTheInterfaceTransitions : Prop :=
  ∀ s t, step s = .next t →
    (s.env.rst = true ∧ t.ifs = .idle) ∨
    (s.env.rst = false ∧
      ((s.ifs = .idle ∧ t.ifs = .busy) ∨ (s.ifs = .busy ∧ t.ifs = .resp) ∨ (s.ifs = .resp ∧ t.ifs = .idle) ∨
        (s.ifs ≠ .busy ∧ t = s)))

/-- R220, R221: reset leaves the block idle and abandons the operation in progress: no response is delivered for it, and
two blocks that differ in their registers alone are the same after it. That they are the same is the model's choice of
register values (log 1, log 2). -/
def Obligations.ResetAbandonsTheOperation : Prop :=
  ∀ s, s.env.rst = true →
    ∃ t, step s = .next t ∧ t.ifs = .idle ∧ t.env.rst = false ∧ t.env.delivered = s.env.delivered ∧
      t.env.offers = s.env.offers ∧ t.engine = s.engine ∧ t.digitBits = s.digitBits ∧
      ∀ s', s'.engine = s.engine → s'.digitBits = s.digitBits → s'.env = s.env → step s' = .next t

/-- R36, R222 and the defaults of R7 and R8: the state a run starts in. That nothing is offered and that every response
is taken are the model's choices (log 4). -/
def Obligations.ResetStateIsIdle : Prop :=
  State.reset.ifs = .idle ∧ State.reset.engine = .knuthD ∧ State.reset.digitBits = .bits128 ∧
  State.reset.env.offers = [] ∧ State.reset.env.delivered = [] ∧ Serving State.reset

/-! ### The operations on one limb -/

/-- R105, with R100: `ADCL` completes in every state; its header, its results, and all it leaves alone. -/
def Obligations.AdclAddsLimbs : Prop :=
  ∀ s cin, (encode (.adcl cin)).toNat = 0x1000 + cin.toNat ∧
    ∃ t, exec (.adcl cin) s = .next t ∧ t.ifs = .resp ∧ t.res.st = 0b00 ∧
      (limb t.res.q 0).toNat = ((limb s.opnd.a 0).toNat + (limb s.opnd.b 0).toNat + cin.toNat) % 2 ^ 128 ∧
      (flagCarry t.res.fl).toNat = ((limb s.opnd.a 0).toNat + (limb s.opnd.b 0).toNat + cin.toNat) / 2 ^ 128 ∧
      limb t.res.q 1 = limb s.res.q 1 ∧ limb t.res.q 2 = limb s.res.q 2 ∧ limb t.res.q 3 = limb s.res.q 3 ∧
      t.res.r = s.res.r ∧ flagCmp t.res.fl = flagCmp s.res.fl ∧ flagZero t.res.fl = flagZero s.res.fl ∧
      SameButResults s t

/-- R106, with R101: `SBBL` completes in every state; its header, its results, and all it leaves alone. -/
def Obligations.SbblSubtractsLimbs : Prop :=
  ∀ s bin, (encode (.sbbl bin)).toNat = 0x2000 + bin.toNat ∧
    ∃ t, exec (.sbbl bin) s = .next t ∧ t.ifs = .resp ∧ t.res.st = 0b00 ∧
      (limb t.res.q 0).toNat + (limb s.opnd.b 0).toNat + bin.toNat =
        (limb s.opnd.a 0).toNat + (flagCarry t.res.fl).toNat * 2 ^ 128 ∧
      (flagCarry t.res.fl = 1 ↔ (limb s.opnd.a 0).toNat < (limb s.opnd.b 0).toNat + bin.toNat) ∧
      limb t.res.q 1 = limb s.res.q 1 ∧ limb t.res.q 2 = limb s.res.q 2 ∧ limb t.res.q 3 = limb s.res.q 3 ∧
      t.res.r = s.res.r ∧ flagCmp t.res.fl = flagCmp s.res.fl ∧ flagZero t.res.fl = flagZero s.res.fl ∧
      SameButResults s t

/-! ### The operations on wide values -/

/-- R108, with the value meaning of R107 and the codes of R77: `CMPW` completes in every state; its header, its result,
and all it leaves alone. -/
def Obligations.CmpwComparesValues : Prop :=
  (encode .cmpw).toNat = 0x3000 ∧
  ∀ s, ∃ t, exec .cmpw s = .next t ∧ t.ifs = .resp ∧ t.res.st = 0b00 ∧
    (s.opnd.a.toNat = s.opnd.b.toNat → flagCmp t.res.fl = 0b00) ∧
    (s.opnd.a.toNat < s.opnd.b.toNat → flagCmp t.res.fl = 0b01) ∧
    (s.opnd.b.toNat < s.opnd.a.toNat → flagCmp t.res.fl = 0b10) ∧
    t.res.q = s.res.q ∧ t.res.r = s.res.r ∧ flagCarry t.res.fl = flagCarry s.res.fl ∧
    flagZero t.res.fl = flagZero s.res.fl ∧ SameButResults s t

/-- R110, with R109: `SHLW` completes in every state; its header, its result, and all it leaves alone. -/
def Obligations.ShlwShiftsLeft : Prop :=
  ∀ s bits, (encode (.shlw bits)).toNat = 0x4000 + bits.toNat ∧
    ∃ t, exec (.shlw bits) s = .next t ∧ t.ifs = .resp ∧ t.res.st = 0b00 ∧
      (512 ≤ bits.toNat → t.res.q = 0) ∧
      (bits.toNat < 512 → t.res.q.toNat = s.opnd.a.toNat * 2 ^ bits.toNat % 2 ^ 512) ∧
      t.res.r = s.res.r ∧ t.res.fl = s.res.fl ∧ SameButResults s t

/-- R112, with R111: `SHRW` completes in every state; its header, its result, and all it leaves alone. -/
def Obligations.ShrwShiftsRight : Prop :=
  ∀ s bits, (encode (.shrw bits)).toNat = 0x5000 + bits.toNat ∧
    ∃ t, exec (.shrw bits) s = .next t ∧ t.ifs = .resp ∧ t.res.st = 0b00 ∧
      (512 ≤ bits.toNat → t.res.q = 0) ∧
      (bits.toNat < 512 → t.res.q.toNat = s.opnd.a.toNat / 2 ^ bits.toNat) ∧
      t.res.r = s.res.r ∧ t.res.fl = s.res.fl ∧ SameButResults s t

/-- R114, with R113: `ISZW` completes in every state; its header, its result, and all it leaves alone. -/
def Obligations.IszwTestsForZero : Prop :=
  (encode .iszw).toNat = 0x6000 ∧
  ∀ s, ∃ t, exec .iszw s = .next t ∧ t.ifs = .resp ∧ t.res.st = 0b00 ∧
    (s.opnd.a.toNat = 0 → flagZero t.res.fl = 1) ∧ (s.opnd.a.toNat ≠ 0 → flagZero t.res.fl = 0) ∧
    t.res.q = s.res.q ∧ t.res.r = s.res.r ∧ flagCarry t.res.fl = flagCarry s.res.fl ∧
    flagCmp t.res.fl = flagCmp s.res.fl ∧ SameButResults s t

/-- R117, with the law of R115: `ADDW` completes in every state; its header, its results, and all it leaves alone. -/
def Obligations.AddwAddsWideValues : Prop :=
  ∀ s cin, (encode (.addw cin)).toNat = 0x8000 + cin.toNat ∧
    ∃ t, exec (.addw cin) s = .next t ∧ t.ifs = .resp ∧ t.res.st = 0b00 ∧
      t.res.q.toNat = (s.opnd.a.toNat + s.opnd.b.toNat + cin.toNat) % 2 ^ 512 ∧
      (flagCarry t.res.fl).toNat = (s.opnd.a.toNat + s.opnd.b.toNat + cin.toNat) / 2 ^ 512 ∧
      t.res.r = s.res.r ∧ flagCmp t.res.fl = flagCmp s.res.fl ∧ flagZero t.res.fl = flagZero s.res.fl ∧
      SameButResults s t

/-- R118, with the law of R116: `SUBW` completes in every state; its header, its results, and all it leaves alone. -/
def Obligations.SubwSubtractsWideValues : Prop :=
  ∀ s bin, (encode (.subw bin)).toNat = 0x9000 + bin.toNat ∧
    ∃ t, exec (.subw bin) s = .next t ∧ t.ifs = .resp ∧ t.res.st = 0b00 ∧
      t.res.q.toNat + s.opnd.b.toNat + bin.toNat = s.opnd.a.toNat + (flagCarry t.res.fl).toNat * 2 ^ 512 ∧
      (flagCarry t.res.fl = 1 ↔ s.opnd.a.toNat < s.opnd.b.toNat + bin.toNat) ∧
      t.res.r = s.res.r ∧ flagCmp t.res.fl = flagCmp s.res.fl ∧ flagZero t.res.fl = flagZero s.res.fl ∧
      SameButResults s t

/-- R109, R111: the two shifts by value, for every count, and their limb formulas, with `ls = bits / 128`,
`bs = bits % 128` and limbs outside `0..3` taken as zero. -/
def Obligations.ShiftsByLimbs : Prop :=
  (∀ (x : Wide) (bits : Nat), 512 ≤ bits → shiftLeft x bits = 0 ∧ shiftRight x bits = 0) ∧
  (∀ (x : Wide) (bits : Nat), bits < 512 → (shiftLeft x bits).toNat = x.toNat * 2 ^ bits % 2 ^ 512 ∧
    (shiftRight x bits).toNat = x.toNat / 2 ^ bits) ∧
  ∀ (x : Wide) (bits i : Nat), bits < 512 → i < 4 →
    (limb (shiftLeft x bits) i).toNat =
      (if i < bits / 128 then 0 else (limb x (i - bits / 128)).toNat * 2 ^ (bits % 128) % 2 ^ 128) +
      (if bits % 128 = 0 ∨ i < bits / 128 + 1 then 0
        else (limb x (i - bits / 128 - 1)).toNat / 2 ^ (128 - bits % 128)) ∧
    (limb (shiftRight x bits) i).toNat =
      (if 4 ≤ i + bits / 128 then 0 else (limb x (i + bits / 128)).toNat / 2 ^ (bits % 128)) +
      (if bits % 128 = 0 ∨ 4 ≤ i + bits / 128 + 1 then 0
        else (limb x (i + bits / 128 + 1)).toNat * 2 ^ (128 - bits % 128) % 2 ^ 128)

/-- R53: both digit views of a wide value have its value, and where the digits lie in the limbs. -/
def Obligations.DigitViewsHaveTheValue : Prop :=
  ∀ x : Wide, digitsVal (digitsOf 64 8 x) = x.toNat ∧ digitsVal (digitsOf 128 4 x) = x.toNat ∧
    ∀ k, k < 4 → (digit (digitsOf 64 8 x) (2 * k)).toNat = (limb x k).toNat % 2 ^ 64 ∧
      (digit (digitsOf 64 8 x) (2 * k + 1)).toNat = (limb x k).toNat / 2 ^ 64 ∧
      digit (digitsOf 128 4 x) k = limb x k

/-- R119, items 1 to 9 in order. -/
def Obligations.WidePrimitiveLaws : Prop :=
  (∀ x y c, (subWide (addWide x y c).1 y c).1 = x) ∧
  (∀ x y c, addWide x y c = addWide y x c) ∧
  (∀ x y, ((subWide x y 0).2 = 1 ↔ compareWide x y = .lt) ∧ ((subWide x y 0).1 = 0 ↔ compareWide x y = .eq)) ∧
  (∀ x y, (compareWide x y = .lt ↔ compareWide y x = .gt) ∧ compareWide x x = .eq) ∧
  (∀ x, isZero x = true ↔ compareWide x 0 = .eq) ∧
  (∀ x j k, shiftLeft (shiftLeft x j) k = shiftLeft x (j + k) ∧
    shiftRight (shiftRight x j) k = shiftRight x (j + k)) ∧
  (∀ x k, k ≤ 511 → (shiftRight (shiftLeft x k) k = x ↔ x.toNat < 2 ^ (512 - k))) ∧
  (∀ x, shiftLeft x 1 = (addWide x x 0).1 ∧ (addWide x x 0).2 = x.extractLsb' 511 1) ∧
  (∀ (a b : Limb) c, (adc a b c).1 = limb (addWide (ofLimbs a 0 0 0) (ofLimbs b 0 0 0) c).1 0 ∧
    (adc a b c).2.toNat = (limb (addWide (ofLimbs a 0 0 0) (ofLimbs b 0 0 0) c).1 1).toNat)

/-! ### DIVREM -/

/-- R200: `DIVISION_BY_ZERO` is the status of a completed operation exactly when it is `DIVREM` with a zero divisor,
whatever the dividend. -/
def Obligations.OnlyAZeroDivisorIsAnError : Prop :=
  ∀ i s t, exec i s = .next t → (t.res.st = 0b01 ↔ i = .divrem ∧ s.opnd.b = 0)

/-- R202: with a zero divisor `DIVREM` completes with `ST = DIVISION_BY_ZERO`, the response is `Err(DivisionByZero)`, and
no other result latch and no working register has been written. -/
def Obligations.ZeroDivisorWritesOnlyTheStatus : Prop :=
  ∀ s, s.opnd.b = 0 →
    ∃ t, exec .divrem s = .next t ∧ t.ifs = .resp ∧ t.res.st = 0b01 ∧ t.res.q = s.res.q ∧ t.res.r = s.res.r ∧
      t.res.fl = s.res.fl ∧ readResponse .divrem t.res = .ok .divisionByZero ∧
      t.long = s.long ∧ t.knuth = s.knuth ∧ t.seq.j = s.seq.j ∧ t.seq.i = s.seq.i ∧ SameButHidden s t

/-- R153, R134 step 2: a dividend below a nonzero divisor takes the fast path, and no working register is written. -/
def Obligations.SmallerDividendIsTheRemainder : Prop :=
  ∀ s, s.opnd.b ≠ 0 → s.opnd.a.toNat < s.opnd.b.toNat →
    ∃ t, exec .divrem s = .next t ∧ t.ifs = .resp ∧ t.res.st = 0b00 ∧ t.res.q = 0 ∧ t.res.r = s.opnd.a ∧
      t.res.fl = s.res.fl ∧ t.long = s.long ∧ t.knuth = s.knuth ∧ SameButHidden s t

/-- R176 with R132: `DIVREM` with `ENGINE = LONGDIV` completes for every nonzero divisor with the quotient and the
remainder, and uses none of the Algorithm D registers. -/
def Obligations.LongDivisionDivides : Prop :=
  ∀ s, s.engine = .longDiv → s.opnd.b ≠ 0 →
    ∃ t, exec .divrem s = .next t ∧ t.ifs = .resp ∧ t.res.st = 0b00 ∧
      t.res.q.toNat = s.opnd.a.toNat / s.opnd.b.toNat ∧ t.res.r.toNat = s.opnd.a.toNat % s.opnd.b.toNat ∧
      t.res.fl = s.res.fl ∧ t.knuth = s.knuth ∧ t.seq.j = s.seq.j ∧ SameButHidden s t

/-- R170: `DIVREM` with `ENGINE = KNUTH_D`, at both digit widths, completes with the quotient and the remainder for
every nonzero divisor, and with the error for a zero one. It leaves `REM`, `QUO` and the flags alone. -/
def Obligations.KnuthEngineDivides : Prop :=
  ∀ s, s.engine = .knuthD →
    ∃ t, exec .divrem s = .next t ∧ t.ifs = .resp ∧ t.res.fl = s.res.fl ∧ t.long = s.long ∧ SameButHidden s t ∧
      (s.opnd.b ≠ 0 → t.res.st = 0b00 ∧
        t.res.q.toNat = s.opnd.a.toNat / s.opnd.b.toNat ∧ t.res.r.toNat = s.opnd.a.toNat % s.opnd.b.toNat) ∧
      (s.opnd.b = 0 → t.res.st = 0b01)

/-- R131: the contract of `DIVREM`, over unbounded integers, for every nonzero divisor and every choice of the
parameters: it completes, the division identity holds and the remainder is below the divisor. -/
def Obligations.DivremMeetsTheContract : Prop :=
  ∀ s, s.opnd.b ≠ 0 →
    ∃ t, exec .divrem s = .next t ∧ t.ifs = .resp ∧ t.res.st = 0b00 ∧
      s.opnd.a.toNat = t.res.q.toNat * s.opnd.b.toNat + t.res.r.toNat ∧ t.res.r.toNat < s.opnd.b.toNat ∧
      t.res.fl = s.res.fl ∧ SameButHidden s t

/-- R137: the edge cases of the division, items 1, 2, 3, 4, 7 and 8 in order. -/
def Obligations.DivremEdgeCases : Prop :=
  ∀ s, ∃ t, exec .divrem s = .next t ∧
    (s.opnd.a = 0 → s.opnd.b ≠ 0 → t.res.st = 0b00 ∧ t.res.q = 0 ∧ t.res.r = 0) ∧
    (s.opnd.a = s.opnd.b → s.opnd.b ≠ 0 → t.res.st = 0b00 ∧ t.res.q = 1 ∧ t.res.r = 0) ∧
    (s.opnd.b = 1 → t.res.st = 0b00 ∧ t.res.q = s.opnd.a ∧ t.res.r = 0) ∧
    (s.opnd.a.toNat < s.opnd.b.toNat → t.res.st = 0b00 ∧ t.res.q = 0 ∧ t.res.r = s.opnd.a) ∧
    (s.opnd.b = 0 → t.res.st = 0b01) ∧
    (s.opnd.b.toNat = 2 ^ 512 - 1 → t.res.st = 0b00 ∧
      (s.opnd.a = s.opnd.b → t.res.q = 1 ∧ t.res.r = 0) ∧ (s.opnd.a ≠ s.opnd.b → t.res.q = 0 ∧ t.res.r = s.opnd.a))

/-! ### Inside the engines -/

/-- R135: the invariant of the long division loop after `n` iterations, with `P_n` the number made of the top `n` bits
of `A`, and that the bit the next shift drops is 0. -/
def Obligations.LongDivisionLoopInvariant : Prop :=
  ∀ (a b : Wide) (n : Nat), b ≠ 0 → n ≤ 512 →
    (longDivAfter a b n).2.toNat = a.toNat / 2 ^ (512 - n) % b.toNat ∧
    (longDivAfter a b n).1.toNat = a.toNat / 2 ^ (512 - n) / b.toNat * 2 ^ (512 - n) ∧
    (n < 512 → (longDivAfter a b n).2.getLsbD 511 = false)

/-- R136, R132: the reference algorithm returns the Euclidean quotient and remainder, and the fast path changes
nothing. -/
def Obligations.FastPathIsOptional : Prop :=
  ∀ a b : Wide, b ≠ 0 → divideRef a b = longDivAfter a b 512 ∧
    (divideRef a b).1.toNat = a.toNat / b.toNat ∧ (divideRef a b).2.toNat = a.toNat % b.toNat

/-- R157: the shift-and-subtract divider on two digits and its bounds. U6: outside its precondition it has no result, and
phase `D3A`, the only phase that calls it, stops. -/
def Obligations.TwoDigitDividerIsExact : Prop :=
  (∀ (wd : Nat) (hi lo d : BitVec wd),
    (2 ^ wd ≤ 2 * d.toNat → hi.toNat ≤ d.toNat →
      ∃ q r, div2by1? hi lo d = some (q, r) ∧ q.toNat = (hi.toNat * 2 ^ wd + lo.toNat) / d.toNat ∧
        r.toNat = (hi.toNat * 2 ^ wd + lo.toNat) % d.toNat ∧ q.toNat ≤ 2 ^ wd + 1 ∧ r.toNat < d.toNat) ∧
    (¬ (2 ^ wd ≤ 2 * d.toNat ∧ hi.toNat ≤ d.toNat) → div2by1? hi lo d = none)) ∧
  ∀ (wd nd : Nat) (f : Frame wd nd),
    let hi := digit f.k.u (f.seq.j + f.k.nsig)
    let d := digit f.k.v (f.k.nsig - 1)
    ¬ (2 ^ wd ≤ 2 * d.toNat ∧ hi.toNat ≤ d.toNat) → phaseD3A f = .error .div2by1Precondition

/-- R159, R168 (b): with the divisor's top bit set the correction loop lowers the trial quotient by at most two, and
the trial remainder grows by the divisor's top digit each time. -/
def Obligations.CorrectionRunsAtMostTwice : Prop :=
  ∀ base v1 v2 u2 q r : Nat, base ≤ 2 * v1 →
    (correctTrial base v1 v2 u2 q r).1 ≤ q ∧ q ≤ (correctTrial base v1 v2 u2 q r).1 + 2 ∧
    (correctTrial base v1 v2 u2 q r).2 = r + (q - (correctTrial base v1 v2 u2 q r).1) * v1

/-- R158, R167 item 2, R169: for a normalized divisor of `n` digits and a partial remainder of `n + 1` digits below it,
the precondition of the trial division holds, and the corrected trial digit fits one digit, is the true quotient digit
or one more, and is the true one when `n = 1`. -/
def Obligations.TrialDigitIsAtMostOneTooLarge : Prop :=
  ∀ (wd n : Nat) (us vs : List (BitVec wd)), 1 ≤ n → us.length = n + 1 → vs.length = n →
    2 ^ wd ≤ 2 * (digit vs (n - 1)).toNat → digitsVal (us.drop 1) < digitsVal vs →
    ∃ q r, div2by1? (digit us n) (digit us (n - 1)) (digit vs (n - 1)) = some (q, r) ∧
      let v2 := if 2 ≤ n then (digit vs (n - 2)).toNat else 0
      let u2 := if 2 ≤ n then (digit us (n - 2)).toNat else 0
      let qhat := (correctTrial (2 ^ wd) (digit vs (n - 1)).toNat v2 u2 q.toNat r.toNat).1
      let qt := digitsVal us / digitsVal vs
      qhat < 2 ^ wd ∧ qt ≤ qhat ∧ qhat ≤ qt + 1 ∧ (n = 1 → qhat = qt)

/-- R154: phase `K1` counts the significant digits of a nonzero divisor. -/
def Obligations.K1CountsSignificantDigits : Prop :=
  ∀ (wd nd : Nat) (f : Frame wd nd), wd * nd = 512 → f.b ≠ 0 →
    1 ≤ (phaseK1 f).k.nsig ∧ (phaseK1 f).k.nsig ≤ nd ∧
    digit (digitsOf wd nd f.b) ((phaseK1 f).k.nsig - 1) ≠ 0 ∧
    ∀ i, (phaseK1 f).k.nsig ≤ i → digit (digitsOf wd nd f.b) i = 0

/-- R155: phase `D1` normalizes: the shift is the count of leading zeros of the top significant digit of the divisor,
and the facts that hold after it, for the quotient and the remainder too. -/
def Obligations.D1Normalizes : Prop :=
  ∀ (wd nd : Nat) (f : Frame wd nd), wd * nd = 512 → f.b ≠ 0 →
    f.k.nsig = significantDigits (digitsOf wd nd f.b) →
    ∃ f', phaseD1 f = .ok f' ∧ f'.seq.ph = .d2 ∧ clz? (digit (digitsOf wd nd f.b) (f.k.nsig - 1)) = some f'.k.s ∧
      f'.k.s < wd ∧ f'.k.nsig = f.k.nsig ∧
      f'.k.u.length = nd + 1 ∧ f'.k.v.length = nd ∧ f'.k.qa = List.replicate nd 0 ∧
      digitsVal f'.k.v = f.b.toNat * 2 ^ f'.k.s ∧ 2 ^ wd ≤ 2 * (digit f'.k.v (f.k.nsig - 1)).toNat ∧
      (∀ i, f.k.nsig ≤ i → digit f'.k.v i = 0) ∧
      digitsVal f'.k.u = f.a.toNat * 2 ^ f'.k.s ∧ (digit f'.k.u nd).toNat < 2 ^ f'.k.s ∧
      digitsVal f'.k.u / digitsVal f'.k.v = f.a.toNat / f.b.toNat ∧
      digitsVal f'.k.u % digitsVal f'.k.v = f.a.toNat % f.b.toNat * 2 ^ f'.k.s

/-- R160, by the digit-serial loop of R161: phase `D4` replaces the `n + 1` digits of the partial remainder at position
`J` by their difference with `QHAT` times the divisor, modulo `B^(n+1)`; `BW` tells whether it was negative; the other
digits are as they were. -/
def Obligations.D4SubtractsTheProduct : Prop :=
  ∀ (wd nd : Nat) (f : Frame wd nd), f.k.u.length = nd + 1 → f.k.v.length = nd → 1 ≤ f.k.nsig →
    f.seq.j + f.k.nsig ≤ nd → f.k.qhat.toNat < 2 ^ wd →
    let n := f.k.nsig
    let j := f.seq.j
    let window (k : KnuthRegs wd nd) : Nat := digitsVal ((k.u.drop j).take (n + 1))
    let product := f.k.qhat.toNat * digitsVal (f.k.v.take n)
    (product ≤ window f.k → window (phaseD4 f).k + product = window f.k ∧ (phaseD4 f).k.bw = 0) ∧
    (window f.k < product →
      window (phaseD4 f).k + product = window f.k + 2 ^ (wd * (n + 1)) ∧ (phaseD4 f).k.bw = 1) ∧
    (phaseD4 f).k.u.length = nd + 1 ∧ (∀ i, i < j ∨ j + n < i → digit (phaseD4 f).k.u i = digit f.k.u i) ∧
    (phaseD4 f).k.v = f.k.v ∧ (phaseD4 f).k.qa = f.k.qa ∧ (phaseD4 f).k.qhat = f.k.qhat ∧ (phaseD4 f).seq.ph = .d5

/-- R163: after a subtraction that went negative, phase `D6` adds the divisor back once: the carry out cancels the
borrow, the stored quotient digit is lowered by one, and the other digits are as they were. -/
def Obligations.D6AddsTheDivisorBack : Prop :=
  ∀ (wd nd : Nat) (f : Frame wd nd), f.k.u.length = nd + 1 → f.k.v.length = nd → f.k.qa.length = nd →
    1 ≤ f.k.nsig → f.seq.j + f.k.nsig ≤ nd →
    let n := f.k.nsig
    let j := f.seq.j
    let window (k : KnuthRegs wd nd) : Nat := digitsVal ((k.u.drop j).take (n + 1))
    2 ^ (wd * (n + 1)) ≤ window f.k + digitsVal (f.k.v.take n) →
    window (phaseD6 f).k + 2 ^ (wd * (n + 1)) = window f.k + digitsVal (f.k.v.take n) ∧
    digit (phaseD6 f).k.qa j = digit f.k.qa j - 1 ∧
    (phaseD6 f).k.u.length = nd + 1 ∧ (∀ i, i < j ∨ j + n < i → digit (phaseD6 f).k.u i = digit f.k.u i) ∧
    (∀ i, i ≠ j → digit (phaseD6 f).k.qa i = digit f.k.qa i) ∧ (phaseD6 f).k.v = f.k.v ∧ (phaseD6 f).seq.ph = .d7

/-! ### The whole machine -/

/-- R26: the operand latches are written by the accept step and by nothing else, reset aside (R36 leaves them
unspecified there). -/
def Obligations.OperandLatchesWrittenByAcceptAlone : Prop :=
  ∀ s t, step s = .next t → t.opnd ≠ s.opnd →
    s.env.rst = true ∨ (s.ifs = .idle ∧ ∃ r rest, s.env.offers = r :: rest ∧ t = s.accept r rest)

/-- R27, R76: the result latches are written by the compute step alone, reset aside, and each of them by the operations
that name it alone. -/
def Obligations.ResultLatchesWrittenByTheirOperations : Prop :=
  (∀ s t, step s = .next t → t.res ≠ s.res → s.env.rst = true ∨ s.ifs = .busy) ∧
  ∀ i s t, exec i s = .next t →
    (t.res.r ≠ s.res.r → i = .divrem) ∧
    (t.res.q ≠ s.res.q → i ≠ .cmpw ∧ i ≠ .iszw) ∧
    (flagCarry t.res.fl ≠ flagCarry s.res.fl → ∃ c, i = .adcl c ∨ i = .sbbl c ∨ i = .addw c ∨ i = .subw c) ∧
    (flagCmp t.res.fl ≠ flagCmp s.res.fl → i = .cmpw) ∧
    (flagZero t.res.fl ≠ flagZero s.res.fl → i = .iszw)

/-- R32: the hidden registers are written by the compute step of `DIVREM` alone, reset aside, and each engine leaves the
other's registers alone (R176). -/
def Obligations.HiddenRegistersBelongToDivrem : Prop :=
  (∀ s t, step s = .next t → (t.seq ≠ s.seq ∨ t.long ≠ s.long ∨ t.knuth ≠ s.knuth) →
    s.env.rst = true ∨ (s.ifs = .busy ∧ latchedOperation s = some .divrem)) ∧
  ∀ s t, exec .divrem s = .next t → (s.engine = .longDiv → t.knuth = s.knuth) ∧ (s.engine = .knuthD → t.long = s.long)

/-- R34: the two parameters are never written. -/
def Obligations.ParametersNeverChange : Prop :=
  ∀ s t, step s = .next t → t.engine = s.engine ∧ t.digitBits = s.digitBits

/-- R33, R141, R8, R175: the response to a request is a function of the request: two blocks with the same operand
latches, whatever else differs (their parameters too), complete with the same response. -/
def Obligations.ResponseDependsOnTheRequestAlone : Prop :=
  ∀ i s s', s'.opnd.a = s.opnd.a → s'.opnd.b = s.opnd.b →
    ∃ t t', exec i s = .next t ∧ exec i s' = .next t' ∧ readResponse i t.res = readResponse i t'.res ∧
      ∃ r, readResponse i t.res = .ok r

/-- R227: the compute step of every operation ends, in every state, and completes. -/
def Obligations.EveryComputeStepEnds : Prop :=
  ∀ i s, ∃ t, exec i s = .next t ∧ t.ifs = .resp

/-- The three invariants hold in the state a run starts in; the ranges rest on the register values log 1 chooses. -/
def Obligations.InvariantsHoldAtReset : Prop :=
  InterfaceInv State.reset ∧ AnswerInv State.reset ∧ RegisterRanges State.reset

/-- Every step keeps the interface invariant (R26, R29, R77, R78, R200). -/
def Obligations.StepKeepsInterfaceInv : Prop :=
  ∀ s t, InterfaceInv s → step s = .next t → InterfaceInv t

/-- Every step keeps the shapes and ranges of the hidden registers (R31, R32; the shapes are the model's, log 12). -/
def Obligations.StepKeepsRegisterRanges : Prop :=
  ∀ s t, RegisterRanges s → step s = .next t → RegisterRanges t

/-- Every step keeps this: a response offered in `RESP` is the one the spec gives the latched request (R25, R33, R76,
R131). -/
def Obligations.StepKeepsAnswerInv : Prop :=
  ∀ s t, AnswerInv s → step s = .next t → AnswerInv t

/-- No step of a machine that meets the interface invariant faults: the faults are those of states no run reaches
(R37, U5, U6). -/
def Obligations.NoFaultUnderTheInterfaceInv : Prop :=
  ∀ s, InterfaceInv s → ∀ r, step s ≠ .fault r

/-- R58, R227: a block that serves answers any sequence of legal requests in order, one for one, each with the response
the spec gives that request, and is then ready for what is offered next. In this run the requester's data change by the
machine's own steps alone: the environment, which may change them between steps, does not (log 4, unsafe for a long run).
Each request takes three steps because the compute step is one step and completes in it (log 7). -/
def Obligations.RequestsAreAnsweredInOrder : Prop :=
  ∀ (reqs rest : List Request) (s : State), Serving s → s.env.offers = reqs ++ rest →
    (∀ r ∈ reqs, (decode r.hdr).instr?.isSome) →
    ∃ t : State, Host.Core.run Sys2Proof.core (3 * reqs.length) s = .next t ∧ Serving t ∧ t.env.offers = rest ∧
      t.env.delivered = s.env.delivered ++ reqs.filterMap answerRequest
end

