-- ==== Sys2Proof/Laws/Arith.lean ====
section
/-! SUPPORT. One lemma per limb function and per wide function, saying what it computes in unbounded integers
(`40_limb_primitives.md`), and the laws of the limb and digit views and of the flag fields. -/

namespace Sys2Proof.Machine

/-! ### Limbs -/

theorem limb_toNat (x : Wide) (i : Nat) : (limb x i).toNat = x.toNat / 2 ^ (128 * i) % 2 ^ 128 := by
  simp [limb, BitVec.extractLsb'_toNat, Nat.shiftRight_eq_div_pow]

/-- `val(X)` as the sum of its limbs (R13). -/
theorem toNat_eq_limbs (x : Wide) : x.toNat = (limb x 0).toNat + (limb x 1).toNat * 2 ^ 128 +
    (limb x 2).toNat * 2 ^ 256 + (limb x 3).toNat * 2 ^ 384 := by
  have h := x.isLt
  simp only [limb_toNat]
  omega

/-- The limbs of a value made of limbs are those limbs. -/
theorem limb_ofLimbs (l0 l1 l2 l3 : Limb) : limb (ofLimbs l0 l1 l2 l3) 0 = l0 ∧ limb (ofLimbs l0 l1 l2 l3) 1 = l1 ∧
    limb (ofLimbs l0 l1 l2 l3) 2 = l2 ∧ limb (ofLimbs l0 l1 l2 l3) 3 = l3 := by
  refine ⟨?_, ?_, ?_, ?_⟩ <;> ext k hk <;>
    simp only [limb, ofLimbs, BitVec.getElem_extractLsb', BitVec.getLsbD_append]
  · simp [hk, BitVec.getLsbD_eq_getElem]
  · simp [hk, BitVec.getLsbD_eq_getElem, show ¬ 128 + k < 128 by omega]
  · simp [hk, BitVec.getLsbD_eq_getElem, show ¬ 256 + k < 128 by omega, show ¬ 256 + k - 128 < 128 by omega,
      show 256 + k - 128 - 128 = k by omega]
  · simp [hk, BitVec.getLsbD_eq_getElem, show ¬ 384 + k < 128 by omega, show ¬ 384 + k - 128 < 128 by omega,
      show ¬ 384 + k - 128 - 128 < 128 by omega, show 384 + k - 128 - 128 - 128 = k by omega]

theorem ofLimbs_toNat (l0 l1 l2 l3 : Limb) : (ofLimbs l0 l1 l2 l3).toNat =
    l0.toNat + l1.toNat * 2 ^ 128 + l2.toNat * 2 ^ 256 + l3.toNat * 2 ^ 384 := by
  obtain ⟨h0, h1, h2, h3⟩ := limb_ofLimbs l0 l1 l2 l3
  rw [toNat_eq_limbs (ofLimbs l0 l1 l2 l3), h0, h1, h2, h3]

/-- Writing limb 0 leaves limbs 1 to 3 as they were (R105). -/
theorem limb_setLimb0 (x : Wide) (v : Limb) : limb (setLimb0 x v) 0 = v ∧ limb (setLimb0 x v) 1 = limb x 1 ∧
    limb (setLimb0 x v) 2 = limb x 2 ∧ limb (setLimb0 x v) 3 = limb x 3 := by
  refine ⟨?_, ?_, ?_, ?_⟩ <;> ext k hk <;>
    simp only [limb, setLimb0, BitVec.getElem_extractLsb', BitVec.getLsbD_append, BitVec.getLsbD_extractLsb']
  · simp [hk, BitVec.getLsbD_eq_getElem]
  · simp [show ¬ 128 + k < 128 by omega, show k < 384 by omega]
  · simp [show ¬ 256 + k < 128 by omega, show 256 + k - 128 < 384 by omega, show 128 + (256 + k - 128) = 256 + k by omega]
  · simp [show ¬ 384 + k < 128 by omega, show 384 + k - 128 < 384 by omega, show 128 + (384 + k - 128) = 384 + k by omega]

/-! ### Add with carry, subtract with borrow, multiply, count leading zeros -/

theorem adc_fst_toNat {w : Nat} (a b : BitVec w) (c : Bit) :
    (adc a b c).1.toNat = (a.toNat + b.toNat + c.toNat) % 2 ^ w := by simp [adc]

theorem adc_snd_toNat {w : Nat} (a b : BitVec w) (c : Bit) :
    (adc a b c).2.toNat = (a.toNat + b.toNat + c.toNat) / 2 ^ w := by
  have ha := a.isLt
  have hb := b.isLt
  have hc := c.isLt
  simp only [adc, BitVec.toNat_ofNat, Nat.pow_one]
  apply Nat.mod_eq_of_lt
  rw [Nat.div_lt_iff_lt_mul (by positivity)]
  omega

/-- R100's law. -/
theorem adc_law {w : Nat} (a b : BitVec w) (c : Bit) :
    (adc a b c).1.toNat + (adc a b c).2.toNat * 2 ^ w = a.toNat + b.toNat + c.toNat := by
  rw [adc_fst_toNat, adc_snd_toNat]
  exact Nat.mod_add_div' _ _

theorem sbb_snd_toNat {w : Nat} (a b : BitVec w) (c : Bit) :
    (sbb a b c).2.toNat = if b.toNat + c.toNat ≤ a.toNat then 0 else 1 := by
  unfold sbb
  split <;> simp

/-- R101's law, with both sides moved so that nothing is negative. -/
theorem sbb_law {w : Nat} (a b : BitVec w) (c : Bit) :
    (sbb a b c).1.toNat + b.toNat + c.toNat = a.toNat + (sbb a b c).2.toNat * 2 ^ w := by
  have ha := a.isLt
  have hb := b.isLt
  have hc := c.isLt
  unfold sbb
  split
  · simp only [BitVec.toNat_ofNat, Nat.mod_eq_of_lt (show a.toNat - (b.toNat + c.toNat) < 2 ^ w by omega)]
    simp
    omega
  · simp only [BitVec.toNat_ofNat, Nat.mod_eq_of_lt (show a.toNat + 2 ^ w - (b.toNat + c.toNat) < 2 ^ w by omega)]
    simp
    omega

/-- R103's law. -/
theorem mulDigits_law {w : Nat} (a b : BitVec w) :
    (mulDigits a b).1.toNat + (mulDigits a b).2.toNat * 2 ^ w = a.toNat * b.toNat := by
  have h : a.toNat * b.toNat < 2 ^ w * 2 ^ w := Nat.mul_lt_mul'' a.isLt b.isLt
  have h2 : a.toNat * b.toNat / 2 ^ w < 2 ^ w := (Nat.div_lt_iff_lt_mul (by positivity)).2 h
  simp only [mulDigits, BitVec.toNat_ofNat, Nat.mod_eq_of_lt h2]
  exact Nat.mod_add_div' _ _

/-- R104: the one `k` that brings the top bit of a nonzero `x` to bit `W - 1`. -/
theorem clz?_spec {w : Nat} (x : BitVec w) (h : x ≠ 0) :
    ∃ k, clz? x = some k ∧ k < w ∧ 2 ^ (w - 1) ≤ x.toNat * 2 ^ k ∧ x.toNat * 2 ^ k < 2 ^ w := by
  have hx : x.toNat ≠ 0 := by simpa [BitVec.toNat_eq] using h
  have hlog : Nat.log2 x.toNat < w := (Nat.log2_lt hx).2 x.isLt
  have hlo := Nat.log2_self_le hx
  have hhi := @Nat.lt_log2_self x.toNat
  refine ⟨w - 1 - Nat.log2 x.toNat, if_neg h, by omega, ?_, ?_⟩
  · calc 2 ^ (w - 1) = 2 ^ Nat.log2 x.toNat * 2 ^ (w - 1 - Nat.log2 x.toNat) := by
          rw [← Nat.pow_add]; congr 1; omega
      _ ≤ _ := Nat.mul_le_mul_right _ hlo
  · calc x.toNat * 2 ^ (w - 1 - Nat.log2 x.toNat) < 2 ^ (Nat.log2 x.toNat + 1) * 2 ^ (w - 1 - Nat.log2 x.toNat) :=
          Nat.mul_lt_mul_of_pos_right hhi (by positivity)
      _ = 2 ^ w := by rw [← Nat.pow_add]; congr 1; omega

/-! ### The wide functions -/

/-- R107: comparing limbs from the top down compares values. -/
theorem compareWide_eq (x y : Wide) : compareWide x y = compare x.toNat y.toNat := by
  have hx := toNat_eq_limbs x
  have hy := toNat_eq_limbs y
  have a0 := (limb x 0).isLt
  have a1 := (limb x 1).isLt
  have a2 := (limb x 2).isLt
  have b0 := (limb y 0).isLt
  have b1 := (limb y 1).isLt
  have b2 := (limb y 2).isLt
  rw [Nat.compare_eq_ite_lt]
  simp only [compareWide, compareFrom]
  generalize (limb x 0).toNat = x0 at *
  generalize (limb x 1).toNat = x1 at *
  generalize (limb x 2).toNat = x2 at *
  generalize (limb x 3).toNat = x3 at *
  generalize (limb y 0).toNat = y0 at *
  generalize (limb y 1).toNat = y1 at *
  generalize (limb y 2).toNat = y2 at *
  generalize (limb y 3).toNat = y3 at *
  rcases lt_trichotomy x3 y3 with h3 | h3 | h3
  · rw [if_pos h3, if_pos (by omega)]
  · rw [if_neg (by omega), if_neg (by omega)]
    rcases lt_trichotomy x2 y2 with h2 | h2 | h2
    · rw [if_pos h2, if_pos (by omega)]
    · rw [if_neg (by omega), if_neg (by omega)]
      rcases lt_trichotomy x1 y1 with h1 | h1 | h1
      · rw [if_pos h1, if_pos (by omega)]
      · rw [if_neg (by omega), if_neg (by omega)]
        rcases lt_trichotomy x0 y0 with h0 | h0 | h0
        · rw [if_pos h0, if_pos (by omega)]
        · rw [if_neg (by omega), if_neg (by omega), if_neg (by omega), if_neg (by omega)]
        · rw [if_neg (by omega), if_pos h0, if_neg (by omega), if_pos (by omega)]
      · rw [if_neg (by omega), if_pos h1, if_neg (by omega), if_pos (by omega)]
    · rw [if_neg (by omega), if_pos h2, if_neg (by omega), if_pos (by omega)]
  · rw [if_neg (by omega), if_pos h3, if_neg (by omega), if_pos (by omega)]

theorem compareWide_lt_iff (x y : Wide) : compareWide x y = .lt ↔ x.toNat < y.toNat := by
  rw [compareWide_eq, Nat.compare_eq_lt]

/-- R109, as the bit vector shift. -/
theorem shiftLeft_eq (x : Wide) (k : Nat) : shiftLeft x k = x <<< k := by
  unfold shiftLeft
  split
  · exact (BitVec.shiftLeft_eq_zero ‹_›).symm
  · apply BitVec.eq_of_toNat_eq
    simp [Nat.shiftLeft_eq]

theorem shiftLeft_toNat (x : Wide) (k : Nat) : (shiftLeft x k).toNat = x.toNat * 2 ^ k % 2 ^ 512 := by
  rw [shiftLeft_eq, BitVec.toNat_shiftLeft, Nat.shiftLeft_eq]

theorem shiftRight_toNat (x : Wide) (k : Nat) : (shiftRight x k).toNat = x.toNat / 2 ^ k := by
  have hx := x.isLt
  unfold shiftRight
  split
  · rename_i h
    have : 2 ^ 512 ≤ 2 ^ k := Nat.pow_le_pow_right (by decide) h
    rw [Nat.div_eq_of_lt (lt_of_lt_of_le hx this)]
    simp
  · rw [BitVec.toNat_ofNat, Nat.mod_eq_of_lt (lt_of_le_of_lt (Nat.div_le_self _ _) hx)]

/-- R111, as the bit vector shift. -/
theorem shiftRight_eq (x : Wide) (k : Nat) : shiftRight x k = x >>> k := by
  apply BitVec.eq_of_toNat_eq
  rw [shiftRight_toNat, BitVec.toNat_ushiftRight, Nat.shiftRight_eq_div_pow]

/-- R113: all four limbs are zero exactly when the value is. -/
theorem isZero_iff (x : Wide) : isZero x = true ↔ x = 0 := by
  have hx := toNat_eq_limbs x
  simp only [isZero, decide_eq_true_eq, BitVec.toNat_eq (x := x), BitVec.toNat_eq (x := limb x _)]
  simp
  omega

theorem isZero_eq_false_iff (x : Wide) : isZero x = false ↔ x ≠ 0 := by
  rw [← Bool.not_eq_true, isZero_iff]

/-- R115's law. -/
theorem addWide_law (x y : Wide) (c : Bit) :
    (addWide x y c).1.toNat + (addWide x y c).2.toNat * 2 ^ 512 = x.toNat + y.toNat + c.toNat := by
  simp only [addWide, ofLimbs_toNat]
  generalize h0 : adc (limb x 0) (limb y 0) c = r0
  generalize h1 : adc (limb x 1) (limb y 1) r0.2 = r1
  generalize h2 : adc (limb x 2) (limb y 2) r1.2 = r2
  generalize h3 : adc (limb x 3) (limb y 3) r2.2 = r3
  have l0 := adc_law (limb x 0) (limb y 0) c
  have l1 := adc_law (limb x 1) (limb y 1) r0.2
  have l2 := adc_law (limb x 2) (limb y 2) r1.2
  have l3 := adc_law (limb x 3) (limb y 3) r2.2
  have hx := toNat_eq_limbs x
  have hy := toNat_eq_limbs y
  simp only [h0, h1, h2, h3] at l0 l1 l2 l3
  omega

/-- R116's law, with both sides moved so that nothing is negative. -/
theorem subWide_law (x y : Wide) (c : Bit) :
    (subWide x y c).1.toNat + y.toNat + c.toNat = x.toNat + (subWide x y c).2.toNat * 2 ^ 512 := by
  simp only [subWide, ofLimbs_toNat]
  generalize h0 : sbb (limb x 0) (limb y 0) c = r0
  generalize h1 : sbb (limb x 1) (limb y 1) r0.2 = r1
  generalize h2 : sbb (limb x 2) (limb y 2) r1.2 = r2
  generalize h3 : sbb (limb x 3) (limb y 3) r2.2 = r3
  have l0 := sbb_law (limb x 0) (limb y 0) c
  have l1 := sbb_law (limb x 1) (limb y 1) r0.2
  have l2 := sbb_law (limb x 2) (limb y 2) r1.2
  have l3 := sbb_law (limb x 3) (limb y 3) r2.2
  have hx := toNat_eq_limbs x
  have hy := toNat_eq_limbs y
  simp only [h0, h1, h2, h3] at l0 l1 l2 l3
  omega

/-! ### Digits -/

section
variable {wd : Nat}

@[simp] theorem digitsVal_nil : digitsVal ([] : List (BitVec wd)) = 0 := rfl
@[simp] theorem digitsVal_cons (d : BitVec wd) (ds : List (BitVec wd)) :
    digitsVal (d :: ds) = d.toNat + 2 ^ wd * digitsVal ds := rfl

theorem digitsVal_append (xs ys : List (BitVec wd)) :
    digitsVal (xs ++ ys) = digitsVal xs + 2 ^ (wd * xs.length) * digitsVal ys := by
  induction xs with
  | nil => simp
  | cons x xs ih => simp [ih, Nat.mul_add, Nat.pow_add]; ring

theorem digitsVal_lt (xs : List (BitVec wd)) : digitsVal xs < 2 ^ (wd * xs.length) := by
  induction xs with
  | nil => simp
  | cons x xs ih =>
    have hx := x.isLt
    have h2 : 2 ^ wd * (digitsVal xs + 1) ≤ 2 ^ wd * 2 ^ (wd * xs.length) := Nat.mul_le_mul_left _ ih
    rw [List.length_cons, Nat.mul_add, Nat.mul_one, Nat.pow_add, digitsVal_cons]
    rw [Nat.mul_add] at h2
    nlinarith

theorem digitsVal_replicate_zero (n : Nat) : digitsVal (List.replicate n (0 : BitVec wd)) = 0 := by
  induction n with
  | zero => rfl
  | succ n ih => rw [List.replicate_succ, digitsVal_cons, ih]; simp

theorem digitsOf_length (wd nd : Nat) (x : Wide) : (digitsOf wd nd x).length = nd := by simp [digitsOf]

theorem digitsOf_digit (wd nd : Nat) (x : Wide) (i : Nat) (h : i < nd) :
    digit (digitsOf wd nd x) i = x.extractLsb' (wd * i) wd := by
  simp [digit, digitsOf, h]

/-- The low `nd` digits of a value are the value modulo `B^nd`. -/
theorem digitsVal_digitsOf (wd nd : Nat) (x : Wide) : digitsVal (digitsOf wd nd x) = x.toNat % 2 ^ (wd * nd) := by
  induction nd with
  | zero => simp [digitsOf, Nat.mod_one]
  | succ n ih =>
    have : digitsOf wd (n + 1) x = digitsOf wd n x ++ [x.extractLsb' (wd * n) wd] := by
      simp [digitsOf, List.range_succ]
    rw [this, digitsVal_append, ih, digitsOf_length, digitsVal_cons, digitsVal_nil, Nat.mul_zero, Nat.add_zero,
      BitVec.extractLsb'_toNat, Nat.shiftRight_eq_div_pow, Nat.mul_add, Nat.mul_one, Nat.pow_add, Nat.mod_mul]

theorem ofDigits_toNat (ds : List (BitVec wd)) (h : wd * ds.length ≤ 512) : (ofDigits ds).toNat = digitsVal ds := by
  rw [ofDigits, BitVec.toNat_ofNat, Nat.mod_eq_of_lt]
  exact lt_of_lt_of_le (digitsVal_lt ds) (Nat.pow_le_pow_right (by decide) h)

theorem digit_set (ds : List (BitVec wd)) (j i : Nat) (d : BitVec wd) (h : j < ds.length) :
    digit (ds.set j d) i = if i = j then d else digit ds i := by
  simp only [digit, List.getD_eq_getElem?_getD, List.getElem?_set]
  split
  · simp_all
  · simp_all [eq_comm]

/-- R154: the digits from `significantDigits` up are zero, and the one below is not. -/
theorem significantDigits_spec (ds : List (BitVec wd)) :
    significantDigits ds ≤ ds.length ∧ (∀ i, significantDigits ds ≤ i → digit ds i = 0) ∧
    (0 < significantDigits ds → digit ds (significantDigits ds - 1) ≠ 0) := by
  induction ds with
  | nil => simp [significantDigits, digit]
  | cons d ds ih =>
    obtain ⟨h1, h2, h3⟩ := ih
    rw [significantDigits]
    cases hn : significantDigits ds with
    | zero =>
      rw [hn] at h2
      by_cases hd : d = 0
      · simp only [hd, if_true]
        refine ⟨by omega, fun i _ => ?_, by omega⟩
        cases i with
        | zero => simp [digit]
        | succ i => simpa [digit] using h2 i (by omega)
      · simp only [hd, if_false]
        refine ⟨by simp, fun i hi => ?_, fun _ => by simpa [digit] using hd⟩
        cases i with
        | zero => omega
        | succ i => simpa [digit] using h2 i (by omega)
    | succ n =>
      rw [hn] at h1 h2 h3
      show n + 2 ≤ _ ∧ (∀ i, n + 2 ≤ i → _) ∧ (0 < n + 2 → _)
      refine ⟨by simpa using h1, fun i hi => ?_, fun _ => by simpa [digit] using h3 (by omega)⟩
      cases i with
      | zero => omega
      | succ i => simpa [digit] using h2 i (by omega)

end

/-! ### Flags -/

/-- Each flag field is the one its own write sets and another's write leaves alone (R28). -/
theorem flags_after_write (fl : BitVec 4) (c z : Bit) (o : BitVec 2) :
    (flagCarry (setFlagCarry fl c) = c ∧ flagCmp (setFlagCarry fl c) = flagCmp fl ∧
      flagZero (setFlagCarry fl c) = flagZero fl) ∧
    (flagCarry (setFlagCmp fl o) = flagCarry fl ∧ flagCmp (setFlagCmp fl o) = o ∧
      flagZero (setFlagCmp fl o) = flagZero fl) ∧
    (flagCarry (setFlagZero fl z) = flagCarry fl ∧ flagCmp (setFlagZero fl z) = flagCmp fl ∧
      flagZero (setFlagZero fl z) = z) := by
  revert fl c z o
  decide

/-- R77: a comparison's code reads back as the comparison. -/
@[simp] theorem cmpOfCode_cmpCode (o : Ordering) : cmpOfCode (cmpCode o) = some o := by cases o <;> rfl

end Sys2Proof.Machine
end

