-- ==== Sys2Proof/Laws/Digits.lean ====
section
/-! SUPPORT. One lemma per digit function of the Algorithm D engine, saying what it computes in unbounded integers
(`42_knuth_d_engine.md` R157, R159, R161, R163). -/

namespace Sys2Proof.Machine

variable {wd : Nat}

/-- The loop of `div2by1` (R157) with a running remainder below the divisor: with `k` steps to go it divides the running
remainder followed by the low `k` bits of the dividend. -/
theorem div2by1Loop_eq (x d : Nat) (k q r : Nat) (h : r < d) :
    div2by1Loop x d k (q, r) = (q + (r * 2 ^ k + x % 2 ^ k) / d, (r * 2 ^ k + x % 2 ^ k) % d) := by
  induction k generalizing q r with
  | zero => simp [div2by1Loop, Nat.mod_one, Nat.div_eq_of_lt h, Nat.mod_eq_of_lt h]
  | succ k ih =>
    have hn : r * 2 ^ (k + 1) + x % 2 ^ (k + 1) = (2 * r + x / 2 ^ k % 2) * 2 ^ k + x % 2 ^ k := by
      rw [Nat.pow_succ, Nat.mod_mul]; ring
    have hb : x / 2 ^ k % 2 < 2 := Nat.mod_lt _ (by decide)
    rw [hn, div2by1Loop]
    split
    · rename_i hle
      have he : (2 * r + x / 2 ^ k % 2) * 2 ^ k + x % 2 ^ k =
          ((2 * r + x / 2 ^ k % 2 - d) * 2 ^ k + x % 2 ^ k) + d * 2 ^ k := by
        obtain ⟨m, hm⟩ := Nat.exists_eq_add_of_le hle
        rw [hm, Nat.add_sub_cancel_left]; ring
      rw [ih _ _ (by omega), he, Nat.add_mul_div_left _ _ (by omega), Nat.add_mul_mod_self_left]
      simp only [Prod.mk.injEq, and_true]
      omega
    · rw [ih _ _ (by omega)]

/-- The correction loop (R159) with its partial remainder `h = QHAT * v1 + RHAT` below `(v1 + 1) * base` and a true digit
`qt` that a true test exceeds: it ends with the test false, `QHAT` one digit and no less than `qt`. -/
theorem correctTrial_law (base v1 v2 u2 h qt : Nat) (hv2 : v2 < base) (hh : h < v1 * base + base) (hqt : qt < base)
    (htest : ∀ q r, q * v1 + r = h → r * base + u2 < q * v2 → qt < q) (q r : Nat) (hqr : q * v1 + r = h)
    (hle : qt ≤ q) :
    (correctTrial base v1 v2 u2 q r).1 * v1 + (correctTrial base v1 v2 u2 q r).2 = h ∧
    qt ≤ (correctTrial base v1 v2 u2 q r).1 ∧ (correctTrial base v1 v2 u2 q r).1 < base ∧
    (correctTrial base v1 v2 u2 q r).1 * v2 ≤ (correctTrial base v1 v2 u2 q r).2 * base + u2 := by
  induction q generalizing r with
  | zero => simp only [correctTrial]; exact ⟨hqr, hle, by omega, by simp⟩
  | succ q ih =>
    rw [correctTrial]
    split
    · rename_i ht
      have hlt : qt ≤ q := by
        rcases ht with h1 | h1
        · omega
        · have := htest _ _ hqr h1; omega
      have hqr' : q * v1 + (r + v1) = h := by rw [← hqr]; ring
      split
      · exact ih _ hqr' hlt
      · rename_i hr
        have hq : q < base := by
          by_contra hge
          have : base * v1 ≤ q * v1 := Nat.mul_le_mul_right _ (by omega)
          nlinarith
        refine ⟨hqr', hlt, hq, ?_⟩
        calc q * v2 ≤ base * base := Nat.mul_le_mul hq.le hv2.le
          _ ≤ (r + v1) * base := Nat.mul_le_mul_right _ (by omega)
          _ ≤ _ := Nat.le_add_right _ _
    · rename_i ht
      exact ⟨hqr, hle, by omega, by simp only; omega⟩

/-- R160 by the loop of R161: the digits and the borrow of the multiply and subtract, with nothing negative. -/
theorem mulSub_law (q : BitVec wd) (us vs : List (BitVec wd)) (k : BitVec wd) (bw : Bit)
    (h : us.length = vs.length + 1) :
    digitsVal (mulSub q us vs k bw).1 + q.toNat * digitsVal vs + k.toNat + bw.toNat =
      digitsVal us + (mulSub q us vs k bw).2.toNat * 2 ^ (wd * us.length) := by
  induction vs generalizing us k bw with
  | nil =>
    obtain ⟨u, rfl⟩ := List.length_eq_one_iff.1 h
    have := sbb_law u k bw
    simp [mulSub]
    omega
  | cons v vs ih =>
    obtain ⟨u, us, rfl⟩ : ∃ u us', us = u :: us' := by
      cases us with
      | nil => simp at h
      | cons u us => exact ⟨u, us, rfl⟩
    have hlen : us.length = vs.length + 1 := by simpa using h
    simp only [mulSub]
    generalize hp : mulDigits q v = p
    generalize ha : adc p.1 k 0 = tc
    generalize hs : sbb u tc.1 bw = db
    generalize hm : mulSub q us vs (p.2 + tc.2.setWidth wd) db.2 = m
    have lp := mulDigits_law q v
    have la := adc_law p.1 k 0
    have ls := sbb_law u tc.1 bw
    have lm := ih us (p.2 + tc.2.setWidth wd) db.2 hlen
    rw [hp] at lp; rw [ha] at la; rw [hs] at ls; rw [hm] at lm
    have hk : (p.2 + tc.2.setWidth wd).toNat = p.2.toNat + tc.2.toNat := by
      have hq := q.isLt
      have hv := v.isLt
      have hkk := k.isLt
      have hc := tc.2.isLt
      have hlt : p.2.toNat + tc.2.toNat < 2 ^ wd := by
        by_contra hge
        have h1 : 2 ^ wd * 2 ^ wd ≤ (p.2.toNat + tc.2.toNat) * 2 ^ wd := Nat.mul_le_mul_right _ (by omega)
        have h2 : (q.toNat + 1) * (v.toNat + 1) ≤ 2 ^ wd * 2 ^ wd := Nat.mul_le_mul (by omega) (by omega)
        have h3 : q.toNat * v.toNat + 2 ^ wd ≤ 2 ^ wd * 2 ^ wd := by
          have : q.toNat * v.toNat ≤ (2 ^ wd - 1) * (2 ^ wd - 1) := Nat.mul_le_mul (by omega) (by omega)
          have h4 : (2 ^ wd - 1) * (2 ^ wd - 1) + 2 ^ wd ≤ 2 ^ wd * 2 ^ wd := by
            obtain ⟨n, hn⟩ : ∃ n, 2 ^ wd = n + 1 := ⟨2 ^ wd - 1, by omega⟩
            rw [hn, Nat.add_sub_cancel]; nlinarith
          omega
        have : (p.2.toNat + tc.2.toNat) * 2 ^ wd + tc.1.toNat = q.toNat * v.toNat + k.toNat := by
          rw [← lp, Nat.add_mul]; simp at la; omega
        omega
      have h5 : (tc.2.setWidth wd).toNat = tc.2.toNat := by
        rw [BitVec.toNat_setWidth, Nat.mod_eq_of_lt (by omega)]
      rw [BitVec.toNat_add, h5, Nat.mod_eq_of_lt hlt]
    rw [hk] at lm
    simp only [digitsVal_cons, List.length_cons]
    rw [Nat.mul_add wd, Nat.mul_one, Nat.pow_add]
    simp at la
    zify at *
    linear_combination ls - la - lp + 2 ^ wd * lm

/-- Digits above the carry digit are as they were. -/
theorem mulSub_append (q : BitVec wd) (us vs ws : List (BitVec wd)) (k : BitVec wd) (bw : Bit)
    (h : us.length = vs.length + 1) :
    mulSub q (us ++ ws) vs k bw = ((mulSub q us vs k bw).1 ++ ws, (mulSub q us vs k bw).2) := by
  induction vs generalizing us k bw with
  | nil =>
    obtain ⟨u, rfl⟩ := List.length_eq_one_iff.1 h
    rfl
  | cons v vs ih =>
    cases us with
    | nil => simp at h
    | cons u us => simp [mulSub, ih us _ _ (by simpa using h)]

/-- R163: the digits of the add-back and its carry out, which `addBack` discards. -/
theorem addBack_law (us vs : List (BitVec wd)) (c : Bit) (h : us.length = vs.length + 1) :
    ∃ cout ≤ 1, digitsVal (addBack us vs c) + cout * 2 ^ (wd * us.length) = digitsVal us + digitsVal vs + c.toNat := by
  induction vs generalizing us c with
  | nil =>
    obtain ⟨u, rfl⟩ := List.length_eq_one_iff.1 h
    have := adc_law u 0 c
    have := (adc u 0 c).2.isLt
    refine ⟨(adc u 0 c).2.toNat, by omega, ?_⟩
    simp at *
    simp [addBack]
    omega
  | cons v vs ih =>
    cases us with
    | nil => simp at h
    | cons u us =>
      obtain ⟨cout, h1, h2⟩ := ih us (adc u v c).2 (by simpa using h)
      have la := adc_law u v c
      refine ⟨cout, h1, ?_⟩
      simp only [addBack, digitsVal_cons, List.length_cons]
      rw [Nat.mul_add wd, Nat.mul_one, Nat.pow_add]
      zify at *
      linear_combination la + 2 ^ wd * h2

/-- Digits above the carry digit are as they were. -/
theorem addBack_append (us vs ws : List (BitVec wd)) (c : Bit) (h : us.length = vs.length + 1) :
    addBack (us ++ ws) vs c = addBack us vs c ++ ws := by
  induction vs generalizing us c with
  | nil =>
    obtain ⟨u, rfl⟩ := List.length_eq_one_iff.1 h
    rfl
  | cons v vs ih =>
    cases us with
    | nil => simp at h
    | cons u us => simp [addBack, ih us _ (by simpa using h)]

end Sys2Proof.Machine
end

