-- ==== Sys2Proof/Laws/State.lean ====
section
/-! SUPPORT. One lemma per field per update of the state and its parts, so that no later proof unfolds a record update. -/

namespace Sys2Proof.Machine

/-! ### The result latches -/

section
variable (l : ResultLatches)

@[simp] theorem ResultLatches.ok_st : (l.ok).st = statusOk := rfl
@[simp] theorem ResultLatches.ok_q : (l.ok).q = l.q := rfl
@[simp] theorem ResultLatches.ok_r : (l.ok).r = l.r := rfl
@[simp] theorem ResultLatches.ok_fl : (l.ok).fl = l.fl := rfl
@[simp] theorem ResultLatches.raiseDivisionByZero_st : (l.raiseDivisionByZero).st = statusDivisionByZero := rfl
@[simp] theorem ResultLatches.raiseDivisionByZero_q : (l.raiseDivisionByZero).q = l.q := rfl
@[simp] theorem ResultLatches.raiseDivisionByZero_r : (l.raiseDivisionByZero).r = l.r := rfl
@[simp] theorem ResultLatches.raiseDivisionByZero_fl : (l.raiseDivisionByZero).fl = l.fl := rfl
@[simp] theorem ResultLatches.writeQ_st (v : Wide) : (l.writeQ v).st = l.st := rfl
@[simp] theorem ResultLatches.writeQ_q (v : Wide) : (l.writeQ v).q = v := rfl
@[simp] theorem ResultLatches.writeQ_r (v : Wide) : (l.writeQ v).r = l.r := rfl
@[simp] theorem ResultLatches.writeQ_fl (v : Wide) : (l.writeQ v).fl = l.fl := rfl
@[simp] theorem ResultLatches.writeQLimb0_st (v : Limb) : (l.writeQLimb0 v).st = l.st := rfl
@[simp] theorem ResultLatches.writeQLimb0_q (v : Limb) : (l.writeQLimb0 v).q = setLimb0 l.q v := rfl
@[simp] theorem ResultLatches.writeQLimb0_r (v : Limb) : (l.writeQLimb0 v).r = l.r := rfl
@[simp] theorem ResultLatches.writeQLimb0_fl (v : Limb) : (l.writeQLimb0 v).fl = l.fl := rfl
@[simp] theorem ResultLatches.writeR_st (v : Wide) : (l.writeR v).st = l.st := rfl
@[simp] theorem ResultLatches.writeR_q (v : Wide) : (l.writeR v).q = l.q := rfl
@[simp] theorem ResultLatches.writeR_r (v : Wide) : (l.writeR v).r = v := rfl
@[simp] theorem ResultLatches.writeR_fl (v : Wide) : (l.writeR v).fl = l.fl := rfl
@[simp] theorem ResultLatches.writeCarry_st (c : Bit) : (l.writeCarry c).st = l.st := rfl
@[simp] theorem ResultLatches.writeCarry_q (c : Bit) : (l.writeCarry c).q = l.q := rfl
@[simp] theorem ResultLatches.writeCarry_r (c : Bit) : (l.writeCarry c).r = l.r := rfl
@[simp] theorem ResultLatches.writeCarry_fl (c : Bit) : (l.writeCarry c).fl = setFlagCarry l.fl c := rfl
@[simp] theorem ResultLatches.writeCmp_st (o : Ordering) : (l.writeCmp o).st = l.st := rfl
@[simp] theorem ResultLatches.writeCmp_q (o : Ordering) : (l.writeCmp o).q = l.q := rfl
@[simp] theorem ResultLatches.writeCmp_r (o : Ordering) : (l.writeCmp o).r = l.r := rfl
@[simp] theorem ResultLatches.writeCmp_fl (o : Ordering) : (l.writeCmp o).fl = setFlagCmp l.fl (cmpCode o) := rfl
@[simp] theorem ResultLatches.writeZero_st (z : Bit) : (l.writeZero z).st = l.st := rfl
@[simp] theorem ResultLatches.writeZero_q (z : Bit) : (l.writeZero z).q = l.q := rfl
@[simp] theorem ResultLatches.writeZero_r (z : Bit) : (l.writeZero z).r = l.r := rfl
@[simp] theorem ResultLatches.writeZero_fl (z : Bit) : (l.writeZero z).fl = setFlagZero l.fl z := rfl

end

/-! ### Complete -/

@[simp] theorem State.complete_engine (s : State) (res : ResultLatches) : (s.complete res).engine = s.engine := rfl
@[simp] theorem State.complete_ifs (s : State) (res : ResultLatches) : (s.complete res).ifs = .resp := rfl
@[simp] theorem State.complete_opnd (s : State) (res : ResultLatches) : (s.complete res).opnd = s.opnd := rfl
@[simp] theorem State.complete_res (s : State) (res : ResultLatches) : (s.complete res).res = res := rfl
@[simp] theorem State.complete_seq (s : State) (res : ResultLatches) : (s.complete res).seq = s.seq := rfl
@[simp] theorem State.complete_long (s : State) (res : ResultLatches) : (s.complete res).long = s.long := rfl
@[simp] theorem State.complete_knuth (s : State) (res : ResultLatches) : (s.complete res).knuth = s.knuth := rfl
@[simp] theorem State.complete_env (s : State) (res : ResultLatches) : (s.complete res).env = s.env := rfl

/-! ### Accept -/

@[simp] theorem State.accept_engine (s : State) (r : Request) (rest : List Request) : (s.accept r rest).engine = s.engine := rfl
@[simp] theorem State.accept_ifs (s : State) (r : Request) (rest : List Request) : (s.accept r rest).ifs = .busy := rfl
@[simp] theorem State.accept_opnd (s : State) (r : Request) (rest : List Request) : (s.accept r rest).opnd = latchRequest r := rfl
@[simp] theorem State.accept_res (s : State) (r : Request) (rest : List Request) : (s.accept r rest).res = s.res := rfl
@[simp] theorem State.accept_seq (s : State) (r : Request) (rest : List Request) : (s.accept r rest).seq = s.seq := rfl
@[simp] theorem State.accept_long (s : State) (r : Request) (rest : List Request) : (s.accept r rest).long = s.long := rfl
@[simp] theorem State.accept_knuth (s : State) (r : Request) (rest : List Request) : (s.accept r rest).knuth = s.knuth := rfl
@[simp] theorem State.accept_env (s : State) (r : Request) (rest : List Request) : (s.accept r rest).env = { s.env with offers := rest } := rfl

/-! ### Deliver -/

@[simp] theorem State.deliver_engine (s : State) (r : Response) : (s.deliver r).engine = s.engine := rfl
@[simp] theorem State.deliver_ifs (s : State) (r : Response) : (s.deliver r).ifs = .idle := rfl
@[simp] theorem State.deliver_opnd (s : State) (r : Response) : (s.deliver r).opnd = s.opnd := rfl
@[simp] theorem State.deliver_res (s : State) (r : Response) : (s.deliver r).res = s.res := rfl
@[simp] theorem State.deliver_seq (s : State) (r : Response) : (s.deliver r).seq = s.seq := rfl
@[simp] theorem State.deliver_long (s : State) (r : Response) : (s.deliver r).long = s.long := rfl
@[simp] theorem State.deliver_knuth (s : State) (r : Response) : (s.deliver r).knuth = s.knuth := rfl
@[simp] theorem State.deliver_env (s : State) (r : Response) : (s.deliver r).env = { s.env with delivered := s.env.delivered ++ [r] } := rfl

/-! ### Reset -/

@[simp] theorem State.applyReset_engine (s : State) : (s.applyReset).engine = s.engine := rfl
@[simp] theorem State.applyReset_ifs (s : State) : (s.applyReset).ifs = .idle := rfl
@[simp] theorem State.applyReset_opnd (s : State) : (s.applyReset).opnd = ⟨0, 0, 0, 0⟩ := rfl
@[simp] theorem State.applyReset_res (s : State) : (s.applyReset).res = ⟨0, 0, 0, 0⟩ := rfl
@[simp] theorem State.applyReset_seq (s : State) : (s.applyReset).seq = ⟨.k0, 0, 0⟩ := rfl
@[simp] theorem State.applyReset_long (s : State) : (s.applyReset).long = ⟨0, 0⟩ := rfl
@[simp] theorem State.applyReset_knuth (s : State) : (s.applyReset).knuth = KnuthFile.reset s.digitBits := rfl
@[simp] theorem State.applyReset_env (s : State) : (s.applyReset).env = { s.env with rst := false } := rfl

/-! ### The end of a compute step of `DIVREM` -/

section
variable {wd nd : Nat} (s : State) (f : Frame wd nd) (file : KnuthRegs wd nd → KnuthFile)

@[simp] theorem State.ofFrame_engine : (s.ofFrame f file).engine = s.engine := rfl
@[simp] theorem State.ofFrame_ifs : (s.ofFrame f file).ifs = .resp := rfl
@[simp] theorem State.ofFrame_opnd : (s.ofFrame f file).opnd = s.opnd := rfl
@[simp] theorem State.ofFrame_res : (s.ofFrame f file).res = f.res := rfl
@[simp] theorem State.ofFrame_seq : (s.ofFrame f file).seq = f.seq := rfl
@[simp] theorem State.ofFrame_long : (s.ofFrame f file).long = f.long := rfl
@[simp] theorem State.ofFrame_knuth : (s.ofFrame f file).knuth = file f.k := rfl
@[simp] theorem State.ofFrame_env : (s.ofFrame f file).env = s.env := rfl

end

/-! ### Its start -/

section
variable {wd nd : Nat} (s : State) (k : KnuthRegs wd nd)

@[simp] theorem State.frame_a : (s.frame k).a = s.opnd.a := rfl
@[simp] theorem State.frame_b : (s.frame k).b = s.opnd.b := rfl
@[simp] theorem State.frame_res : (s.frame k).res = s.res := rfl
@[simp] theorem State.frame_long : (s.frame k).long = s.long := rfl
@[simp] theorem State.frame_k : (s.frame k).k = k := rfl
@[simp] theorem State.frame_ph : (s.frame k).seq.ph = .k0 := rfl
@[simp] theorem State.frame_j : (s.frame k).seq.j = s.seq.j := rfl
@[simp] theorem State.frame_i : (s.frame k).seq.i = s.seq.i := rfl

end

/-! ### Going to a phase -/

section
variable {wd nd : Nat} (f : Frame wd nd) (p : Phase)

@[simp] theorem Frame.goto_a : (f.goto p).a = f.a := rfl
@[simp] theorem Frame.goto_b : (f.goto p).b = f.b := rfl
@[simp] theorem Frame.goto_res : (f.goto p).res = f.res := rfl
@[simp] theorem Frame.goto_long : (f.goto p).long = f.long := rfl
@[simp] theorem Frame.goto_k : (f.goto p).k = f.k := rfl
@[simp] theorem Frame.goto_ph : (f.goto p).seq.ph = p := rfl
@[simp] theorem Frame.goto_j : (f.goto p).seq.j = f.seq.j := rfl
@[simp] theorem Frame.goto_i : (f.goto p).seq.i = f.seq.i := rfl

end

/-! ### The digit width of a register file -/

@[simp] theorem KnuthFile.reset_digitBits (s : State) (d : Config.DigitBits) :
    ({ s with knuth := KnuthFile.reset d } : State).digitBits = d := by cases d <;> rfl

theorem State.applyReset_digitBits (s : State) : s.applyReset.digitBits = s.digitBits := by
  obtain ⟨_, _, _, _, _, _, _ | _, _⟩ := s <;> rfl

end Sys2Proof.Machine
end

