-- ==== Sys2Proof/Laws/Engine.lean ====
section
/-! SUPPORT. What the phases of `DIVREM` can do: the lengths the digit functions keep, what every phase step leaves
alone, the induction over a run of phases, and the inversion of `execDivrem`. -/

namespace Sys2Proof.Machine

open Sys2Proof.Config

variable {wd nd : Nat}

/-! ### The digit functions keep lengths -/

@[simp] theorem mulSub_length (q : BitVec wd) (us vs : List (BitVec wd)) (k : BitVec wd) (bw : Bit) :
    (mulSub q us vs k bw).1.length = us.length := by
  induction us generalizing vs k bw with
  | nil => rfl
  | cons u us ih =>
    cases vs with
    | nil => rfl
    | cons v vs => simp [mulSub, ih]

@[simp] theorem addBack_length (us vs : List (BitVec wd)) (c : Bit) : (addBack us vs c).length = us.length := by
  induction us generalizing vs c with
  | nil => rfl
  | cons u us ih =>
    cases vs with
    | nil => rfl
    | cons v vs => simp [addBack, ih]

/-! ### One phase step -/

/-- What no phase step changes: the operands and the flags. -/
theorem phaseStep_frame (e : Engine) {f f' : Frame wd nd} (h : phaseStep e f = .ok f') :
    f'.a = f.a ∧ f'.b = f.b ∧ f'.res.fl = f.res.fl := by
  unfold phaseStep at h
  split at h
  case h_1 =>
    cases h; unfold phaseK0; split
    · simp
    · split
      · simp
      · cases e <;> simp
  case h_3 => unfold phaseD1 at h; split at h <;> cases h; simp
  case h_5 => unfold phaseD3A at h; simp only at h; split at h <;> cases h; simp
  case h_11 => cases h; simp [phaseD8]
  case h_10 => cases h; unfold phaseD7; split <;> simp
  case h_14 => cases h; unfold phaseLongIter; simp only; split <;> simp
  all_goals cases h; simp [phaseK1, phaseD2, phaseD3B, phaseD4, phaseD5, phaseD6, phaseLongInit, phaseLongDone]

/-- The induction over a run: what holds at its start and is kept by every phase step before `K9` holds at its end, and
the end is `K9`. -/
theorem runPhases_induction (e : Engine) (P : Frame wd nd → Prop)
    (hstep : ∀ f f', P f → f.seq.ph ≠ .k9 → phaseStep e f = .ok f' → P f') (fuel : Nat) {f f' : Frame wd nd}
    (hf : P f) (h : runPhases e fuel f = .ok f') : P f' ∧ f'.seq.ph = .k9 := by
  induction fuel generalizing f with
  | zero =>
    unfold runPhases at h
    split at h
    · cases h; exact ⟨hf, ‹_›⟩
    · cases h
  | succ n ih =>
    unfold runPhases at h
    split at h
    · cases h; exact ⟨hf, ‹_›⟩
    · split at h
      · exact ih (hstep _ _ hf ‹_› ‹_›) h
      · cases h

/-- A phase step before `K9` is the first of a run. -/
theorem runPhases_succ (e : Engine) (fuel : Nat) {f f' : Frame wd nd} (hp : f.seq.ph ≠ .k9)
    (h : phaseStep e f = .ok f') : runPhases e (fuel + 1) f = runPhases e fuel f' := by
  rw [runPhases, if_neg hp, h]

/-- A run at `K9` has ended. -/
theorem runPhases_k9 (e : Engine) (fuel : Nat) {f : Frame wd nd} (hp : f.seq.ph = .k9) :
    runPhases e fuel f = .ok f := by
  cases fuel <;> simp [runPhases, hp]

/-! ### DIVREM -/

/-- The three ways out of `K0` (R153). -/
theorem phaseK0_cases (e : Engine) (f : Frame wd nd) :
    (f.b = 0 ∧ phaseK0 e f = { f with res := f.res.raiseDivisionByZero }.goto .k9) ∨
    (f.b ≠ 0 ∧ f.a.toNat < f.b.toNat ∧
      phaseK0 e f = { f with res := ((f.res.writeQ 0).writeR f.a).ok }.goto .k9) ∨
    (f.b ≠ 0 ∧ f.b.toNat ≤ f.a.toNat ∧
      phaseK0 e f = f.goto (match e with | .knuthD => .k1 | .longDiv => .longInit)) := by
  unfold phaseK0
  by_cases hb : f.b = 0
  · exact .inl ⟨hb, if_pos ((isZero_iff _).2 hb)⟩
  · rw [if_neg (fun h => hb ((isZero_iff _).1 h))]
    by_cases hlt : f.a.toNat < f.b.toNat
    · exact .inr (.inl ⟨hb, hlt, if_pos ((compareWide_lt_iff _ _).2 hlt)⟩)
    · refine .inr (.inr ⟨hb, by omega, ?_⟩)
      rw [if_neg (fun h => hlt ((compareWide_lt_iff _ _).1 h))]
      cases e <;> rfl

/-- `runDivrem` completes exactly when its run of phases ends. -/
theorem runDivrem_next {s t : State} {k : KnuthRegs wd nd} {file : KnuthRegs wd nd → KnuthFile}
    (h : runDivrem s k file = .next t) :
    ∃ f, runPhases s.engine maxPhaseSteps (s.frame k) = .ok f ∧ t = s.ofFrame f file := by
  unfold runDivrem at h
  split at h
  · cases h; exact ⟨_, ‹_›, rfl⟩
  · cases h

/-- What `DIVREM` leaves alone whenever it completes. -/
theorem execDivrem_frame {s t : State} (h : execDivrem s = .next t) :
    t.ifs = .resp ∧ t.res.fl = s.res.fl ∧ t.engine = s.engine ∧ t.digitBits = s.digitBits ∧ t.opnd = s.opnd ∧
      t.env = s.env := by
  have key : ∀ {wd nd : Nat} (k : KnuthRegs wd nd) (file : KnuthRegs wd nd → KnuthFile),
      runDivrem s k file = .next t → t.ifs = .resp ∧ t.res.fl = s.res.fl ∧ t.engine = s.engine ∧
        t.opnd = s.opnd ∧ t.env = s.env ∧ ∃ k', t.knuth = file k' := by
    intro wd nd k file h
    obtain ⟨f, hf, rfl⟩ := runDivrem_next h
    have hfl := (runPhases_induction s.engine (fun g => g.res.fl = s.res.fl)
      (fun g g' hg _ hs => (phaseStep_frame _ hs).2.2.trans hg) _ (by simp) hf).1
    exact ⟨rfl, hfl, rfl, rfl, rfl, f.k, rfl⟩
  unfold execDivrem at h
  split at h
  all_goals
    obtain ⟨h1, h2, h3, h4, h5, k', h6⟩ := key _ _ h
    refine ⟨h1, h2, h3, ?_, h4, h5⟩
    simp_all [State.digitBits]

end Sys2Proof.Machine
end

