-- ==== Sys2Proof/Laws/PerInstr.lean ====
section
/-! SUPPORT. Per-instruction families: `EncodingIsLegal`, the header of an operation is one a row of the opcode map
selects (`30_encoding.md` R73). -/

namespace Sys2Proof.Laws.EncodingIsLegal

/-- The header of an operation is legal by the rows of R73. -/
def Statement (i : Instr) : Prop := Header.wellFormed (encode i) = true

/-- The mask of the shift rows keeps all of a header but its ten low bits. -/
theorem masked_header (op : BitVec 4) (bits : Aux) : headerOfFields op 0 bits &&& 0xFC00 = headerOfFields op 0 0 := by
  apply BitVec.eq_of_getLsbD_eq
  intro i hi
  have bit (x : Aux) : (headerOfFields op 0 x).getLsbD i =
      if i < 10 then x.getLsbD i else if i < 12 then false else op.getLsbD (i - 12) := by
    show ((op ++ (0 : BitVec 2)) ++ x).getLsbD i = _
    rw [BitVec.getLsbD_append, BitVec.getLsbD_append]
    split <;> [skip; split] <;> simp_all [show (i - 10 < 2) ↔ i < 12 by omega, Nat.sub_sub]
  rw [BitVec.getLsbD_and, bit, bit]
  interval_cases i <;> simp

theorem adcl (cin : Bit) : Statement (.adcl cin) := by revert cin; unfold Statement; decide
theorem sbbl (bin : Bit) : Statement (.sbbl bin) := by revert bin; unfold Statement; decide
theorem cmpw : Statement .cmpw := by unfold Statement; decide
theorem shlw (bits : Aux) : Statement (.shlw bits) :=
  List.any_eq_true.2 ⟨⟨"SHLW", 0x4000, 0xFC00⟩, by decide, beq_iff_eq.2 (masked_header 4 bits)⟩
theorem shrw (bits : Aux) : Statement (.shrw bits) :=
  List.any_eq_true.2 ⟨⟨"SHRW", 0x5000, 0xFC00⟩, by decide, beq_iff_eq.2 (masked_header 5 bits)⟩
theorem iszw : Statement .iszw := by unfold Statement; decide
theorem divrem : Statement .divrem := by unfold Statement; decide
theorem addw (cin : Bit) : Statement (.addw cin) := by revert cin; unfold Statement; decide
theorem subw (bin : Bit) : Statement (.subw bin) := by revert bin; unfold Statement; decide

end Sys2Proof.Laws.EncodingIsLegal
end

