-- ==== Sys2Proof/Laws/Step.lean ====
section
/-! SUPPORT. What a step can do, said once: the frame of every operation, and the inversion of `step`. -/

namespace Sys2Proof.Machine

open Sys2Proof.Config

/-- Whatever the operation, a completed compute step leaves the parameters, the operand latches and the requester's side
alone, and `IFS` is `RESP`. -/
theorem exec_next {i : Instr} {s t : State} (h : exec i s = .next t) :
    t.ifs = .resp ∧ t.engine = s.engine ∧ t.digitBits = s.digitBits ∧ t.opnd = s.opnd ∧ t.env = s.env := by
  cases i
  case divrem =>
    obtain ⟨h1, -, h3, h4, h5, h6⟩ := execDivrem_frame h
    exact ⟨h1, h3, h4, h5, h6⟩
  all_goals
    cases h
    exact ⟨rfl, rfl, rfl, rfl, rfl⟩

/-- Whatever the operation but `DIVREM`, a completed compute step leaves the hidden registers alone. -/
theorem exec_next_hidden {i : Instr} {s t : State} (hi : i ≠ .divrem) (h : exec i s = .next t) :
    t.seq = s.seq ∧ t.long = s.long ∧ t.knuth = s.knuth := by
  cases i
  case divrem => exact absurd rfl hi
  all_goals
    cases h
    exact ⟨rfl, rfl, rfl⟩

/-- No operation is refused. -/
theorem exec_not_refused (i : Instr) (s : State) (why : Refusal) : exec i s ≠ .refused why := by
  cases i
  case divrem =>
    show execDivrem s ≠ _
    unfold execDivrem runDivrem
    split <;> split <;> simp
  all_goals
    intro h
    cases h

/-- The ways one step reaches a next state: reset, waiting for a request, accept, compute and complete, waiting for the
requester, deliver. -/
theorem step_next_cases {s t : State} (h : step s = .next t) :
    (s.env.rst = true ∧ t = s.applyReset) ∨
    (s.env.rst = false ∧ s.ifs = .idle ∧ s.env.offers = [] ∧ t = s) ∨
    (s.env.rst = false ∧ s.ifs = .idle ∧ ∃ r rest i, s.env.offers = r :: rest ∧ decode r.hdr = .operation i ∧
      t = s.accept r rest) ∨
    (s.env.rst = false ∧ s.ifs = .busy ∧ ∃ i, latchedOperation s = some i ∧ exec i s = .next t) ∨
    (s.env.rst = false ∧ s.ifs = .resp ∧ s.env.willTake = false ∧ t = s) ∨
    (s.env.rst = false ∧ s.ifs = .resp ∧ s.env.willTake = true ∧ ∃ r, offeredResponse s = .ok r ∧ t = s.deliver r) := by
  unfold step at h
  split at h
  · cases h; exact .inl ⟨‹_›, rfl⟩
  · have hrst : s.env.rst = false := by simpa using ‹¬ s.env.rst = true›
    split at h
    · unfold stepIdle at h
      split at h
      · cases h; exact .inr (.inl ⟨hrst, ‹_›, ‹_›, rfl⟩)
      · split at h
        · cases h; exact .inr (.inr (.inl ⟨hrst, ‹_›, _, _, _, ‹_›, ‹_›, rfl⟩))
        · cases h
    · split at h
      · exact .inr (.inr (.inr (.inl ⟨hrst, ‹_›, _, ‹_›, h⟩)))
      · cases h
    · unfold stepResp at h
      split at h
      · split at h
        · cases h; exact .inr (.inr (.inr (.inr (.inr ⟨hrst, ‹_›, ‹_›, _, ‹_›, rfl⟩))))
        · cases h
      · cases h; exact .inr (.inr (.inr (.inr (.inl ⟨hrst, ‹_›, by simpa using ‹¬ s.env.willTake = true›, rfl⟩))))

/-- A header accepted and latched is the header of the same operation (R26, R74). -/
theorem latchedOperation_latchRequest {r : Request} {i : Instr} (h : decode r.hdr = .operation i) :
    (decode (latchedHeader (latchRequest r))).instr? = some i := by
  have key : headerRsv r.hdr = 0 → latchedHeader (latchRequest r) = r.hdr := by
    intro h0
    have : r.hdr = headerOfFields (headerOp r.hdr) (headerRsv r.hdr) (headerAux r.hdr) := by
      generalize r.hdr = x
      unfold headerOfFields headerOp headerRsv headerAux
      rw [← BitVec.toNat_inj]
      have hx := x.isLt
      simp only [BitVec.toNat_append, BitVec.extractLsb'_toNat, Nat.shiftRight_eq_div_pow]
      rw [← Nat.shiftLeft_add_eq_or_of_lt (by omega), ← Nat.shiftLeft_add_eq_or_of_lt (by omega)]
      omega
    rw [h0] at this
    exact this.symm
  have h0 : headerRsv r.hdr = 0 := by
    by_contra hne
    rw [show decode r.hdr = .reserved .rsvNonzero from if_pos hne] at h
    cases h
  rw [key h0, h]
  rfl

end Sys2Proof.Machine
end

