-- ==== Sys2Proof/Tests/Slice0.lean ====
section
/-! SUPPORT. Small tests, and for every statement with hypotheses a concrete state that meets them. Expected values are
those of `95_test_vectors.md` (its section stands beside each test) or are worked out by hand from the rule named. -/

namespace Sys2Proof.Tests

set_option Elab.async false

open Sys2Proof Sys2Proof.Machine Sys2Proof.Config

/-! ### Helpers -/

/-- All ones in a limb, `M` of `95_test_vectors.md` section 0. -/
abbrev limbM : Limb := 0xffffffffffffffffffffffffffffffff

/-- The top bit of a limb, `H` of `95_test_vectors.md` section 0. -/
abbrev limbH : Limb := 0x80000000000000000000000000000000

/-- The dividend of the worked examples, `[1, 2, 3, 4]`. -/
abbrev x1234 : Wide := ofLimbs 1 2 3 4

/-- The dividend and the divisor of vector K3, the one that reaches the add-back at both widths. -/
abbrev k3a : Wide := ofLimbs 0 0 0 1
abbrev k3b : Wide := ofLimbs 0xfffffffffffffffffffffffffffffffe 0 limbH 0

/-- Result latches with a mark in every bit an operation might leave alone. -/
def oldResults : ResultLatches := ⟨0, ofLimbs 11 12 13 14, ofLimbs 21 22 23 24, 0b1101⟩

/-- A block that computes the operation of the latches `op`, `aux`, `a`, `b`. -/
def busy (e : Engine) (d : DigitBits) (op : BitVec 4) (aux : Aux) (a b : Wide) : State :=
  { State.afterReset e d Requester.initial with ifs := .busy, opnd := ⟨op, aux, a, b⟩, res := oldResults }

/-- An idle block with the given offers. -/
def idleWith (offers : List Request) : State :=
  { State.reset with env := { Requester.initial with offers := offers } }

/-- The response one compute step leads to. -/
def respond (e : Engine) (d : DigitBits) (i : Instr) (a b : Wide) : Option Response :=
  match exec i (busy e d 0 0 a b) with
  | .next t => (readResponse i t.res).toOption
  | _ => none

/-- A property of the next state of a step. -/
def nextIs (o : Host.Outcome State Fault Refusal) (p : State → Bool) : Bool :=
  match o with
  | .next t => p t
  | _ => false

/-- The refusal of a step. -/
def refusedAs (o : Host.Outcome State Fault Refusal) (why : Refusal) : Bool :=
  match o with
  | .refused r => r == why
  | _ => false

/-- A divide frame of 8 digits of 64 bits with given operands, position and registers. -/
def frame64 (a b : Wide) (j : Nat) (k : KnuthRegs 64 8) : Frame 64 8 := ⟨a, b, oldResults, ⟨.k0, j, 0⟩, ⟨0, 0⟩, k⟩

/-! ### Decoding, encoding, reserved headers (section 2.1) -/

theorem test_decode_adcl : decode 0b0001_00_0000000001 = .operation (.adcl 1) := by decide
theorem test_decode_sbbl : decode 0b0010_00_0000000001 = .operation (.sbbl 1) := by decide
theorem test_decode_cmpw : decode 0b0011_00_0000000000 = .operation .cmpw := by decide
theorem test_decode_shlw : decode 0b0100_00_0111111111 = .operation (.shlw 511) := by decide
theorem test_decode_shrw : decode 0b0101_00_0010000000 = .operation (.shrw 128) := by decide
theorem test_decode_iszw : decode 0b0110_00_0000000000 = .operation .iszw := by decide
theorem test_decode_divrem : decode 0b0111_00_0000000000 = .operation .divrem := by decide
theorem test_decode_addw : decode 0b1000_00_0000000001 = .operation (.addw 1) := by decide
theorem test_decode_subw : decode 0b1001_00_0000000001 = .operation (.subw 1) := by decide

theorem test_encode_words : [encode (.adcl 0), encode (.sbbl 1), encode .cmpw, encode (.shlw 1023), encode (.shrw 1023),
    encode .iszw, encode .divrem, encode (.addw 0), encode (.subw 1)] =
    [0x1000, 0x2001, 0x3000, 0x43FF, 0x53FF, 0x6000, 0x7000, 0x8000, 0x9001] := by decide

/-- `aux` outside its legal values. -/
theorem test_decode_refuses_aux : [0x1002, 0x2003, 0x3001, 0x6008, 0x7001, 0x8002, 0x9200].map decode =
    List.replicate 7 (.reserved .auxIllegal) := by decide

/-- `rsv` not zero. -/
theorem test_decode_refuses_rsv : [0x1400, 0x4400, 0x5800, 0x7C00, 0xFFFF].map decode =
    List.replicate 5 (.reserved .rsvNonzero) := by decide

/-- `op` unassigned. -/
theorem test_decode_refuses_op : [0x0000, 0x0001, 0xA000, 0xF000].map decode =
    List.replicate 4 (.reserved .opUnassigned) := by decide

/-! ### The smoke test of WellFormed: an ill-formed header for each row and each field -/

theorem test_wellFormed_refuses_op : [0x0000, 0xA000, 0xF000].all (fun h => !Header.wellFormed h) = true := by decide
theorem test_wellFormed_refuses_rsv : [0x1400, 0x4400, 0x5800, 0x7C00].all (fun h => !Header.wellFormed h) = true := by
  decide
theorem test_wellFormed_refuses_aux :
    [0x1002, 0x2003, 0x3001, 0x6008, 0x7001, 0x8002, 0x9200].all (fun h => !Header.wellFormed h) = true := by decide
theorem test_wellFormed_refuses_request : Request.wellFormed ⟨0x7001, x1234, 2⟩ = false := by decide
theorem test_wellFormed_accepts : [0x1001, 0x2001, 0x3000, 0x43FF, 0x5080, 0x6000, 0x7000, 0x8001, 0x9001].all
    Header.wellFormed = true := by decide

/-! ### One operation (sections 2.2 to 2.9, 3) -/

theorem test_adcl_wraps : respond .knuthD .bits128 (.adcl 1) (ofLimbs limbM 9 9 9) (ofLimbs limbM 9 9 9) =
    some (.ok (.limbCarry limbM 1)) := by decide +kernel
theorem test_adcl_reads_limb_0 : respond .knuthD .bits128 (.adcl 1) (ofLimbs 5 9 9 9) (ofLimbs 7 9 9 9) =
    some (.ok (.limbCarry 13 0)) := by decide +kernel
theorem test_sbbl_subtrahend_overflows : respond .knuthD .bits128 (.sbbl 1) 0 (ofLimbs limbM 0 0 0) =
    some (.ok (.limbCarry 0 1)) := by decide +kernel
theorem test_sbbl_borrow_in : respond .knuthD .bits128 (.sbbl 1) 12 7 = some (.ok (.limbCarry 4 0)) := by decide +kernel
theorem test_cmpw_top_limb_first : respond .knuthD .bits128 .cmpw (ofLimbs limbM limbM limbM 0) (ofLimbs 0 0 0 1) =
    some (.ok (.ordering .lt)) := by decide +kernel
theorem test_cmpw_unsigned : respond .knuthD .bits128 .cmpw (ofLimbs 0 limbH 0 0)
    (ofLimbs 0 0x7fffffffffffffffffffffffffffffff 0 0) = some (.ok (.ordering .gt)) := by decide +kernel
theorem test_shlw_across_limbs : respond .knuthD .bits128 (.shlw 127) x1234 0 =
    some (.ok (.wide (ofLimbs limbH 0 0x80000000000000000000000000000001 1))) := by decide +kernel
theorem test_shlw_512 : respond .knuthD .bits128 (.shlw 512) x1234 0 = some (.ok (.wide 0)) := by decide +kernel
theorem test_shrw_across_limbs : respond .knuthD .bits128 (.shrw 130) x1234 0 =
    some (.ok (.wide (ofLimbs 0xc0000000000000000000000000000000 0 1 0))) := by decide +kernel
theorem test_shrw_logical : respond .knuthD .bits128 (.shrw 511) (ofLimbs limbM limbM limbM limbM) 0 =
    some (.ok (.wide 1)) := by decide +kernel
theorem test_iszw_zero : respond .knuthD .bits128 .iszw 0 x1234 = some (.ok (.zero 1)) := by decide +kernel
theorem test_iszw_top_bit : respond .knuthD .bits128 .iszw (ofLimbs 0 0 0 limbH) 0 = some (.ok (.zero 0)) := by
  decide +kernel
theorem test_addw_ripples : respond .knuthD .bits128 (.addw 1) (ofLimbs limbM limbM limbM limbM) 0 =
    some (.ok (.wideCarry 0 1)) := by decide +kernel
theorem test_addw_stops : respond .knuthD .bits128 (.addw 0) (ofLimbs limbM limbM 0 0) 1 =
    some (.ok (.wideCarry (ofLimbs 0 0 1 0) 0)) := by decide +kernel
theorem test_subw_borrows : respond .knuthD .bits128 (.subw 0) (ofLimbs 0 0 0 1) 1 =
    some (.ok (.wideCarry (ofLimbs limbM limbM limbM 0) 0)) := by decide +kernel
theorem test_subw_equal_with_borrow : respond .knuthD .bits128 (.subw 1) x1234 x1234 =
    some (.ok (.wideCarry (ofLimbs limbM limbM limbM limbM) 1)) := by decide +kernel

/-- Vector K3, whose add-back is reached at both widths (section 3.2). -/
theorem test_divrem_add_back : (respond .knuthD .bits128 .divrem k3a k3b, respond .knuthD .bits64 .divrem k3a k3b) =
    (some (.ok (.divided 1 (ofLimbs 2 limbM 0x7fffffffffffffffffffffffffffffff 0))),
     some (.ok (.divided 1 (ofLimbs 2 limbM 0x7fffffffffffffffffffffffffffffff 0)))) := by decide +kernel

set_option maxRecDepth 100000 in
/-- Vector S3 by the long division. -/
theorem test_divrem_long : respond .longDiv .bits128 .divrem x1234 2 =
    some (.ok (.divided (ofLimbs 0 0x80000000000000000000000000000001 1 2) 1)) := by decide +kernel

/-- The trace of K3 at `DIGIT_BITS = 64` after its last phase (section 3.3): the hidden registers, not only the
response. -/
theorem test_divrem_hidden_registers : nextIs (exec .divrem (busy .knuthD .bits64 7 0 k3a k3b)) (fun t =>
    match t.knuth with
    | .digits64 k => k.nsig == 6 && k.s == 0 && k.u == [2, 0, 0xffffffffffffffff, 0xffffffffffffffff, 0xffffffffffffffff,
        0x7fffffffffffffff, 0, 0, 0] && k.qa == [1, 0, 0, 0, 0, 0, 0, 0] && k.qhat == 2 && k.bw == 1
    | .digits128 _ => false) = true := by decide +kernel

/-! ### Witnesses: the interface -/

theorem witness_reserved_conditions : reservedByRule 0x0000 ∧ reservedByRule 0xA000 ∧ reservedByRule 0xF000 ∧
    reservedByRule 0x1400 ∧ reservedByRule 0x1002 ∧ reservedByRule 0x93FF ∧ reservedByRule 0x3001 ∧
    reservedByRule 0x73FF ∧ ¬ reservedByRule 0x1001 ∧ ¬ reservedByRule 0x9001 ∧ ¬ reservedByRule 0x43FF := by
  refine ⟨?_, ?_, ?_, ?_, ?_, ?_, ?_, ?_, ?_, ?_, ?_⟩ <;> dsimp only [reservedByRule] <;> decide

/-- Line 3 of program P4 (section 4): refused, whatever the operands. -/
theorem witness_refused : (idleWith [⟨0x7001, x1234, 2⟩]).env.rst = false ∧ (idleWith [⟨0x7001, x1234, 2⟩]).ifs = .idle ∧
    refusedAs (step (idleWith [⟨0x7001, x1234, 2⟩])) (.reservedHeader .auxIllegal) = true := by decide +kernel

theorem witness_accepted : nextIs (step (idleWith [⟨0x43FF, x1234, 2⟩, ⟨0x7001, 0, 0⟩])) (fun t =>
    t.ifs == .busy && t.opnd == ⟨0x4, 0x3FF, x1234, 2⟩ && t.env.offers == [⟨0x7001, 0, 0⟩]) = true ∧
    decode 0x43FF = .operation (.shlw 1023) := by decide +kernel

theorem witness_busy_step : (busy .knuthD .bits128 0x4 0x3FF x1234 2).env.rst = false ∧
    (busy .knuthD .bits128 0x4 0x3FF x1234 2).ifs = .busy ∧
    decode (latchedHeader (busy .knuthD .bits128 0x4 0x3FF x1234 2).opnd) = .operation (.shlw 1023) := by decide +kernel

theorem witness_placed : decodeTableWord 16 0x7000 = some .divrem ∧ decodeTableWord 16 0x53FF = some (.shrw 1023) ∧
    decodeTableWord 16 0x7001 = none := by decide

/-- A request offered to a busy block stays offered while the block completes. -/
def busyOffered : State :=
  { busy .knuthD .bits128 0x6 0 0 0 with env := { Requester.initial with offers := [⟨0x7001, 0, 0⟩] } }

theorem witness_held : busyOffered.env.rst = false ∧ busyOffered.ifs ≠ .idle ∧
    nextIs (step busyOffered) (fun t => t.env.offers == [⟨0x7001, 0, 0⟩]) = true := by decide +kernel

/-- A completed `DIVREM`, with the status and the requester's readiness given. -/
def completed (st : BitVec 2) (b : Wide) (willTake : Bool) : State :=
  { State.reset with
    ifs := .resp, opnd := ⟨0x7, 0, 7, b⟩, res := ⟨st, 3, 1, 0⟩, env := { Requester.initial with willTake := willTake } }

theorem witness_delivered : (completed 0 2 true).ifs = .resp ∧ (completed 0 2 true).env.willTake = true ∧
    (completed 0 2 true).env.rst = false ∧ (offeredResponse (completed 0 2 true)).toOption = some (.ok (.divided 3 1)) ∧
    (offeredResponse (completed 1 0 true)).toOption = some .divisionByZero ∧
    nextIs (step (completed 1 0 true)) (fun t => t.ifs == .idle && t.env.delivered == [.divisionByZero]) = true := by
  decide +kernel

theorem witness_response_stays : (completed 0 2 false).env.rst = false ∧ (completed 0 2 false).ifs = .resp ∧
    (completed 0 2 false).env.willTake = false ∧ nextIs (step (completed 0 2 false)) (fun t => t == completed 0 2 false) = true := by
  decide +kernel

/-- One step for each of the transitions, the waits among them. -/
theorem witness_transitions : nextIs (step State.reset) (fun t => t == State.reset) = true ∧
    nextIs (step (idleWith [⟨0x6000, 0, 0⟩])) (fun t => t.ifs == .busy) = true ∧
    nextIs (step busyOffered) (fun t => t.ifs == .resp) = true ∧
    nextIs (step (completed 0 2 true)) (fun t => t.ifs == .idle) = true := by decide +kernel

/-- A busy block with reset asserted. -/
def resetting : State :=
  { busy .longDiv .bits64 0x7 0 7 2 with env := { Requester.initial with rst := true } }

theorem witness_reset : resetting.env.rst = true ∧
    nextIs (step resetting) (fun t => t.ifs == .idle && t.env.delivered == [] && t.digitBits == .bits64) = true := by
  decide +kernel

/-! ### Witnesses: the wide functions -/

/-- A shift by the largest count below 512, top limb; and one whose parts come from two limbs. -/
theorem witness_shift_limbs : limb (shiftLeft x1234 511) 3 = limbH ∧ limb (shiftRight x1234 386) 0 = 1 ∧
    limb (shiftLeft x1234 1) 3 = 8 := by decide +kernel

theorem witness_shift_back : (511 ≤ 511) ∧ (1 : Wide).toNat < 2 ^ (512 - 511) ∧
    shiftRight (shiftLeft 1 511) 511 = 1 ∧ shiftRight (shiftLeft 2 511) 511 ≠ 2 := by decide +kernel

theorem witness_digits : digit (digitsOf 64 8 (ofLimbs 0 0 0 limbH)) 7 = 0x8000000000000000 ∧
    digit (digitsOf 64 8 (ofLimbs 0 0 0 limbH)) 6 = 0 := by decide +kernel

/-! ### Witnesses: DIVREM -/

theorem witness_zero_divisor : (busy .knuthD .bits128 7 0 x1234 0).opnd.b = 0 ∧
    nextIs (exec .divrem (busy .knuthD .bits128 7 0 x1234 0)) (fun t => t.res == { oldResults with st := 1 }) = true := by
  decide +kernel

theorem witness_status_ok : nextIs (exec .divrem (busy .knuthD .bits128 7 0 x1234 1)) (fun t => t.res.st == 0) = true := by
  decide +kernel

/-- Vector S4. -/
theorem witness_smaller_dividend : (busy .knuthD .bits64 7 0 x1234 (ofLimbs 3 5 7 11)).opnd.b ≠ 0 ∧
    (busy .knuthD .bits64 7 0 x1234 (ofLimbs 3 5 7 11)).opnd.a.toNat < (ofLimbs 3 5 7 11).toNat := by decide +kernel

theorem witness_long_division : (busy .longDiv .bits64 7 0 x1234 2).engine = .longDiv ∧
    (busy .longDiv .bits64 7 0 x1234 2).opnd.b ≠ 0 := by decide +kernel

theorem witness_knuth : (busy .knuthD .bits64 7 0 x1234 2).engine = .knuthD ∧
    (busy .knuthD .bits64 7 0 x1234 2).opnd.b ≠ 0 ∧ (busy .knuthD .bits64 7 0 x1234 0).opnd.b = 0 := by decide +kernel

/-- An operand pair for each edge case. -/
theorem witness_edge_cases : ((0 : Wide) = 0 ∧ (2 : Wide) ≠ 0) ∧ (x1234 = x1234 ∧ x1234 ≠ 0) ∧
    x1234.toNat < (ofLimbs 3 5 7 11).toNat ∧ (ofLimbs limbM limbM limbM limbM).toNat = 2 ^ 512 - 1 ∧
    (ofLimbs limbM limbM limbM limbM) ≠ x1234 := by decide +kernel

/-- After 511 of 512 iterations `P_n` is the dividend without its last bit, 14 = 4 * 3 + 2; after all of them it is the
dividend, 29 = 9 * 3 + 2. -/
theorem witness_long_loop : (3 : Wide) ≠ 0 ∧ 511 < 512 ∧ longDivAfter 29 3 511 = (4 * 2, 2) ∧ longDivAfter 29 3 512 = (9, 2) := by
  set_option maxRecDepth 100000 in decide +kernel

/-! ### Witnesses: inside the engines -/

/-- Inside the precondition: the trace of K2 reaches `B + 1` this way (`hi = d`); outside it on each side. -/
theorem witness_div2by1 : (2 ^ 8 ≤ 2 * (0x80 : BitVec 8).toNat ∧ (0x80 : BitVec 8).toNat ≤ (0x80 : BitVec 8).toNat) ∧
    div2by1? (0x80 : BitVec 8) 0xFF 0x80 = some (0x101, 0x7F) ∧ div2by1? (0x81 : BitVec 8) 0 0x80 = none ∧
    div2by1? (0 : BitVec 8) 0 0x7F = none := by decide +kernel

/-- A divisor digit of zero is outside the precondition, and `D3A` stops on it. -/
theorem witness_d3a_stops : ¬ (2 ^ 64 ≤ 2 * (digit (KnuthRegs.reset 64 8).v 0).toNat ∧
      (digit (KnuthRegs.reset 64 8).u 1).toNat ≤ (digit (KnuthRegs.reset 64 8).v 0).toNat) ∧
    (match phaseD3A (frame64 0 0 0 (KnuthRegs.reset 64 8)) with
      | .error e => e == Fault.div2by1Precondition
      | .ok _ => false) = true := by decide +kernel

/-- Two passes: `256 - 1` and `256 - 2`, with the remainder growing by `v1 = 128` each time. -/
theorem witness_correction : 256 ≤ 2 * 128 ∧ correctTrial 256 128 255 0 255 0 = (253, 256) := by decide +kernel

/-- Two digits and one digit. -/
theorem witness_trial_digit :
    (([0, 0, 0x7F] : List (BitVec 8)).length = 2 + 1 ∧ ([0xFF, 0x80] : List (BitVec 8)).length = 2 ∧
      2 ^ 8 ≤ 2 * (digit ([0xFF, 0x80] : List (BitVec 8)) (2 - 1)).toNat ∧
      digitsVal (([0, 0, 0x7F] : List (BitVec 8)).drop 1) < digitsVal ([0xFF, 0x80] : List (BitVec 8))) ∧
    (([0, 0x7F] : List (BitVec 8)).length = 1 + 1 ∧ ([0x80] : List (BitVec 8)).length = 1 ∧
      2 ^ 8 ≤ 2 * (digit ([0x80] : List (BitVec 8)) (1 - 1)).toNat ∧
      digitsVal (([0, 0x7F] : List (BitVec 8)).drop 1) < digitsVal ([0x80] : List (BitVec 8))) := by decide +kernel

/-- The frame of K3 at `DIGIT_BITS = 64` as `D1` finds it. -/
def k3D1 : Frame 64 8 := frame64 k3a k3b 0 { KnuthRegs.reset 64 8 with nsig := 6 }

theorem witness_k1_d1 : 64 * 8 = 512 ∧ k3D1.b ≠ 0 ∧ k3D1.k.nsig = significantDigits (digitsOf 64 8 k3D1.b) ∧
    (phaseK1 (frame64 k3a k3b 0 (KnuthRegs.reset 64 8))).k.nsig = 6 := by decide +kernel

/-- The registers of K3 at `DIGIT_BITS = 64` as `D4` finds them, with the trial digit given: 2 is the trace's at
`J = 0`, which goes negative, and 1 is the true digit. -/
def k3D4 (qhat : BitVec 65) : Frame 64 8 := frame64 k3a k3b 0
  { u := [0, 0, 0, 0, 0, 0, 1, 0, 0], v := digitsOf 64 8 k3b, qa := List.replicate 8 0, nsig := 6, s := 0, qhat := qhat,
    rhat := 0, bw := 0 }

theorem witness_d4 : (k3D4 2).k.u.length = 8 + 1 ∧ (k3D4 2).k.v.length = 8 ∧ 1 ≤ (k3D4 2).k.nsig ∧
    (k3D4 2).seq.j + (k3D4 2).k.nsig ≤ 8 ∧ (k3D4 2).k.qhat.toNat < 2 ^ 64 ∧
    digitsVal (((k3D4 2).k.u.drop 0).take 7) < 2 * digitsVal ((k3D4 2).k.v.take 6) ∧
    1 * digitsVal ((k3D4 1).k.v.take 6) ≤ digitsVal (((k3D4 1).k.u.drop 0).take 7) := by decide +kernel

/-- The trace's registers after `D4` (section 3.3). -/
theorem test_d4_trace : (phaseD4 (k3D4 2)).k.u = [4, 0, 0xfffffffffffffffe, 0xffffffffffffffff, 0xffffffffffffffff,
    0xffffffffffffffff, 0xffffffffffffffff, 0, 0] ∧ (phaseD4 (k3D4 2)).k.bw = 1 := by decide +kernel

theorem witness_d6 : (phaseD5 (phaseD4 (k3D4 2))).k.u.length = 8 + 1 ∧ (phaseD5 (phaseD4 (k3D4 2))).k.v.length = 8 ∧
    (phaseD5 (phaseD4 (k3D4 2))).k.qa.length = 8 ∧ 1 ≤ (phaseD5 (phaseD4 (k3D4 2))).k.nsig ∧
    (phaseD5 (phaseD4 (k3D4 2))).seq.j + (phaseD5 (phaseD4 (k3D4 2))).k.nsig ≤ 8 ∧
    (phaseD5 (phaseD4 (k3D4 2))).seq.ph = .d6 ∧
    2 ^ (64 * 7) ≤ digitsVal (((phaseD5 (phaseD4 (k3D4 2))).k.u.drop 0).take 7) +
      digitsVal ((phaseD5 (phaseD4 (k3D4 2))).k.v.take 6) := by decide +kernel

/-! ### Witnesses: the whole machine -/

/-- Steps that write the operand latches, the result latches and the hidden registers. -/
theorem witness_writes :
    nextIs (step (idleWith [⟨0x7000, x1234, 2⟩])) (fun t => t.opnd != State.reset.opnd) = true ∧
    nextIs (step (busy .knuthD .bits128 7 0 x1234 2)) (fun t => t.res != oldResults) = true ∧
    nextIs (step (busy .knuthD .bits128 7 0 x1234 2)) (fun t => t.knuth != KnuthFile.reset .bits128) = true := by
  decide +kernel

/-- An operation that changes each result latch and each flag. -/
theorem witness_result_latches :
    nextIs (exec .divrem (busy .knuthD .bits128 7 0 x1234 2)) (fun t => t.res.r != oldResults.r) = true ∧
    nextIs (exec (.shlw 1) (busy .knuthD .bits128 4 1 x1234 2)) (fun t => t.res.q != oldResults.q) = true ∧
    nextIs (exec (.addw 0) (busy .knuthD .bits128 8 0 x1234 2)) (fun t => flagCarry t.res.fl != flagCarry oldResults.fl) = true ∧
    nextIs (exec .cmpw (busy .knuthD .bits128 3 0 2 x1234)) (fun t => flagCmp t.res.fl != flagCmp oldResults.fl) = true ∧
    nextIs (exec .iszw (busy .knuthD .bits128 6 0 2 x1234)) (fun t => flagZero t.res.fl != flagZero oldResults.fl) = true := by
  decide +kernel

/-- Two blocks of different parameters with the same operands. -/
theorem witness_same_request : (busy .longDiv .bits64 7 0 x1234 2).opnd.a = (busy .knuthD .bits128 7 0 x1234 2).opnd.a ∧
    (busy .longDiv .bits64 7 0 x1234 2).opnd.b = (busy .knuthD .bits128 7 0 x1234 2).opnd.b ∧
    (busy .longDiv .bits64 7 0 x1234 2) ≠ (busy .knuthD .bits128 7 0 x1234 2) := by decide +kernel

theorem witness_interfaceInv : InterfaceInv (busy .knuthD .bits128 7 0 x1234 2) ∧ InterfaceInv (completed 1 0 true) ∧
    ¬ InterfaceInv (completed 1 2 true) ∧ nextIs (step (busy .knuthD .bits128 7 0 x1234 2)) (fun t => t.ifs == .resp) = true := by
  unfold InterfaceInv; decide +kernel

theorem witness_answerInv : AnswerInv (completed 0 2 true) ∧ AnswerInv (completed 1 0 true) ∧
    nextIs (step (completed 0 2 true)) (fun t => t.env.delivered == [.ok (.divided 3 1)]) = true := by
  refine ⟨fun _ => ⟨.divrem, ?_, ?_⟩, fun _ => ⟨.divrem, ?_, ?_⟩, ?_⟩ <;> decide +kernel

theorem witness_registerRanges : RegisterRanges (busy .knuthD .bits64 7 0 x1234 2) ∧
    nextIs (step (busy .knuthD .bits64 7 0 x1234 2)) (fun _ => true) = true := by
  refine ⟨⟨⟨rfl, rfl, rfl, ⟨by decide, by decide⟩, by decide⟩, ?_, ?_⟩, ?_⟩ <;> decide +kernel

/-- Program P4 (section 4) without its refused line: a block that serves, and requests that are legal. -/
theorem witness_requests : Serving (idleWith [⟨0x7000, x1234, 0⟩, ⟨0x7000, x1234, 2⟩]) ∧
    (decode 0x7000).instr?.isSome ∧
    [(⟨0x7000, x1234, 0⟩ : Request), ⟨0x7000, x1234, 2⟩].filterMap answerRequest =
      [.divisionByZero, .ok (.divided (ofLimbs 0 0x80000000000000000000000000000001 1 2) 1)] := by
  unfold Serving; decide +kernel

end Sys2Proof.Tests
end

/-! # The interface: what one step writes and what it keeps (`10_state.md`) -/

namespace Sys2Proof.Machine

open Sys2Proof.Config

/-! ### One lemma per way of stepping -/

theorem step_idle {s : State} (hrst : s.env.rst = false) (hifs : s.ifs = .idle) : step s = stepIdle s := by
  simp [step, hrst, hifs]

theorem step_busy {s : State} {i : Instr} (hrst : s.env.rst = false) (hifs : s.ifs = .busy)
    (hi : latchedOperation s = some i) : step s = exec i s := by
  simp [step, hrst, hifs, hi]

theorem step_resp {s : State} (hrst : s.env.rst = false) (hifs : s.ifs = .resp) : step s = stepResp s := by
  simp [step, hrst, hifs]

/-- The accept step, taken. -/
theorem stepIdle_accepts {s : State} {r : Request} {rest : List Request} {i : Instr} (ho : s.env.offers = r :: rest)
    (hd : decode r.hdr = .operation i) : stepIdle s = .next (s.accept r rest) := by
  simp [stepIdle, ho, hd]

/-- The deliver step, taken. -/
theorem stepResp_delivers {s : State} {r : Response} (hw : s.env.willTake = true) (hr : offeredResponse s = .ok r) :
    stepResp s = .next (s.deliver r) := by
  simp [stepResp, hw, hr]

/-- `OP` and `AUX` alone decide which operation is latched. -/
theorem latchedOperation_congr {s t : State} (h : t.opnd = s.opnd) : latchedOperation t = latchedOperation s := by
  rw [latchedOperation, latchedOperation, h]

theorem latchedOperation_accept {s : State} {r : Request} {rest : List Request} {i : Instr}
    (h : decode r.hdr = .operation i) : latchedOperation (s.accept r rest) = some i := by
  rw [latchedOperation, State.accept_opnd, latchedOperation_latchRequest h]

/-- The parameter `DIGIT_BITS` is read from the register file alone. -/
theorem digitBits_congr {s t : State} (h : t.knuth = s.knuth) : t.digitBits = s.digitBits := by
  rw [State.digitBits, State.digitBits, h]

/-! ### Which operation writes which result latch (R27, R28, `30_encoding.md` R76) -/

@[simp] theorem flags_setFlagCarry (fl : BitVec 4) (c : Bit) : flagCarry (setFlagCarry fl c) = c ∧
    flagCmp (setFlagCarry fl c) = flagCmp fl ∧ flagZero (setFlagCarry fl c) = flagZero fl :=
  (flags_after_write fl c 0 0).1

@[simp] theorem flags_setFlagCmp (fl : BitVec 4) (o : BitVec 2) : flagCarry (setFlagCmp fl o) = flagCarry fl ∧
    flagCmp (setFlagCmp fl o) = o ∧ flagZero (setFlagCmp fl o) = flagZero fl :=
  (flags_after_write fl 0 0 o).2.1

@[simp] theorem flags_setFlagZero (fl : BitVec 4) (z : Bit) : flagCarry (setFlagZero fl z) = flagCarry fl ∧
    flagCmp (setFlagZero fl z) = flagCmp fl ∧ flagZero (setFlagZero fl z) = z :=
  (flags_after_write fl 0 z 0).2.2

/-- Only `DIVREM` writes `R`. -/
theorem exec_next_r {i : Instr} {s t : State} (h : exec i s = .next t) (hi : i ≠ .divrem) : t.res.r = s.res.r := by
  cases i
  case divrem => exact absurd rfl hi
  all_goals cases h; simp

/-- `CMPW` and `ISZW` do not write `Q`. -/
theorem exec_next_q {i : Instr} {s t : State} (h : exec i s = .next t) (hi : i = .cmpw ∨ i = .iszw) :
    t.res.q = s.res.q := by
  rcases hi with rfl | rfl
  all_goals cases h; simp

/-- Each flag field is left alone by the operations that do not name it. -/
theorem exec_next_flags {i : Instr} {s t : State} (h : exec i s = .next t) :
    ((∃ c, i = .adcl c ∨ i = .sbbl c ∨ i = .addw c ∨ i = .subw c) ∨ flagCarry t.res.fl = flagCarry s.res.fl) ∧
    (i = .cmpw ∨ flagCmp t.res.fl = flagCmp s.res.fl) ∧ (i = .iszw ∨ flagZero t.res.fl = flagZero s.res.fl) := by
  cases i
  case divrem =>
    have hfl := (execDivrem_frame h).2.1
    simp [hfl]
  all_goals cases h; simp

/-! ### The obligations on one step -/

/-- Settles O12: each way `step_next_cases` lists is one of R23's transitions or a wait. -/
theorem onlyTheInterfaceTransitions : Obligations.OnlyTheInterfaceTransitions := by
  intro s t h
  rcases step_next_cases h with ⟨hrst, rfl⟩ | ⟨hrst, hifs, -, rfl⟩ | ⟨hrst, hifs, r, rest, -, -, -, rfl⟩ |
    ⟨hrst, hifs, i, -, hexec⟩ | ⟨hrst, hifs, -, rfl⟩ | ⟨hrst, hifs, -, r, -, rfl⟩
  · exact .inl ⟨hrst, rfl⟩
  · exact .inr ⟨hrst, .inr (.inr (.inr ⟨by simp [hifs], rfl⟩))⟩
  · exact .inr ⟨hrst, .inl ⟨hifs, rfl⟩⟩
  · exact .inr ⟨hrst, .inr (.inl ⟨hifs, (exec_next hexec).1⟩)⟩
  · exact .inr ⟨hrst, .inr (.inr (.inr ⟨by simp [hifs], rfl⟩))⟩
  · exact .inr ⟨hrst, .inr (.inr (.inl ⟨hifs, rfl⟩))⟩

/-- Settles O42: of the ways a step goes, only reset and accept write the operand latches. -/
theorem operandLatchesWrittenByAcceptAlone : Obligations.OperandLatchesWrittenByAcceptAlone := by
  intro s t h hne
  rcases step_next_cases h with ⟨hrst, -⟩ | ⟨-, -, -, rfl⟩ | ⟨-, hifs, r, rest, -, ho, -, rfl⟩ |
    ⟨-, -, i, -, hexec⟩ | ⟨-, -, -, rfl⟩ | ⟨-, -, -, r, -, rfl⟩
  · exact .inl hrst
  · exact absurd rfl hne
  · exact .inr ⟨hifs, r, rest, ho, rfl⟩
  · obtain ⟨-, -, -, hopnd, -⟩ := exec_next hexec
    exact absurd hopnd hne
  · exact absurd rfl hne
  · exact absurd rfl hne

/-- Settles O43: the compute step alone writes the result latches, and each operation those it names. -/
theorem resultLatchesWrittenByTheirOperations : Obligations.ResultLatchesWrittenByTheirOperations := by
  constructor
  · intro s t h hne
    rcases step_next_cases h with ⟨hrst, -⟩ | ⟨-, -, -, rfl⟩ | ⟨-, -, r, rest, -, -, -, rfl⟩ |
      ⟨-, hifs, -⟩ | ⟨-, -, -, rfl⟩ | ⟨-, -, -, r, -, rfl⟩
    · exact .inl hrst
    · exact absurd rfl hne
    · exact absurd rfl hne
    · exact .inr hifs
    · exact absurd rfl hne
    · exact absurd rfl hne
  · intro i s t h
    obtain ⟨hcarry, hcmp, hzero⟩ := exec_next_flags h
    refine ⟨fun hne => ?_, fun hne => ⟨fun hi => ?_, fun hi => ?_⟩, hcarry.resolve_right, hcmp.resolve_right,
      hzero.resolve_right⟩
    · by_contra hi
      exact hne (exec_next_r h hi)
    · exact hne (exec_next_q h (.inl hi))
    · exact hne (exec_next_q h (.inr hi))

/-- Settles O45: reset keeps the parameters, and no other step writes them. -/
theorem parametersNeverChange : Obligations.ParametersNeverChange := by
  intro s t h
  rcases step_next_cases h with ⟨-, rfl⟩ | ⟨-, -, -, rfl⟩ | ⟨-, -, r, rest, -, -, -, rfl⟩ |
    ⟨-, -, i, -, hexec⟩ | ⟨-, -, -, rfl⟩ | ⟨-, -, -, r, -, rfl⟩
  · exact ⟨rfl, s.applyReset_digitBits⟩
  · exact ⟨rfl, rfl⟩
  · exact ⟨rfl, rfl⟩
  · obtain ⟨-, hengine, hdigits, -, -⟩ := exec_next hexec
    exact ⟨hengine, hdigits⟩
  · exact ⟨rfl, rfl⟩
  · exact ⟨rfl, rfl⟩

/-- Settles O6: the step is accept, whose latches stand for the operation its header decodes to. -/
theorem acceptLatchesTheRequest : Obligations.AcceptLatchesTheRequest := by
  intro s r rest i hrst hifs ho hd
  refine ⟨s.accept r rest, (step_idle hrst hifs).trans (stepIdle_accepts ho hd), rfl, rfl, rfl, rfl, rfl,
    latchedOperation_accept hd, rfl, rfl, hrst, rfl, rfl, rfl, rfl, rfl, rfl⟩

/-- Settles O7: `step_busy` for the operation the latched header decodes to. -/
theorem busyStepRunsTheLatchedOperation : Obligations.BusyStepRunsTheLatchedOperation := by
  intro s i hrst hifs hd
  exact step_busy hrst hifs (by rw [latchedOperation, hd]; rfl)

/-- Settles O10: the step is deliver, which writes `IFS` and the requester's record alone. -/
theorem deliverHandsTheResponseOver : Obligations.DeliverHandsTheResponseOver := by
  intro s r hrst hifs hw hr
  exact ⟨s.deliver r, (step_resp hrst hifs).trans (stepResp_delivers hw hr), rfl, rfl, rfl, rfl, rfl, rfl, rfl, rfl,
    rfl, rfl, rfl⟩

/-- Settles O14: the fields of `State.reset`, each by its definition. -/
theorem resetStateIsIdle : Obligations.ResetStateIsIdle :=
  ⟨rfl, rfl, rfl, rfl, rfl, rfl, rfl, rfl⟩

/-! ### The invariants in an idle block -/

/-- An idle block meets the interface invariant: it offers nothing. -/
theorem InterfaceInv.of_idle {s : State} (h : s.ifs = .idle) : InterfaceInv s := by
  simp [InterfaceInv, h]

/-- A block that offers no response meets the answer invariant. -/
theorem AnswerInv.of_ne_resp {s : State} (h : s.ifs ≠ .resp) : AnswerInv s := fun hr => absurd hr h

/-- The register file after reset is in range. -/
theorem KnuthFile.reset_inRange (d : DigitBits) : (KnuthFile.reset d).InRange := by
  cases d <;> simp [KnuthFile.reset, KnuthFile.InRange, KnuthRegs.InRange, KnuthRegs.reset]

/-- A reset step leaves the hidden registers in range. -/
theorem RegisterRanges.applyReset (s : State) : RegisterRanges s.applyReset := by
  refine ⟨KnuthFile.reset_inRange _, ?_, Nat.zero_le _⟩
  rw [State.applyReset_seq]
  cases s.applyReset.digitBits <;> decide

/-- Settles O48: `State.reset` is idle, and it is what a reset step makes of itself. -/
theorem invariantsHoldAtReset : Obligations.InvariantsHoldAtReset :=
  ⟨InterfaceInv.of_idle rfl, AnswerInv.of_ne_resp (by decide), RegisterRanges.applyReset State.reset⟩

end Sys2Proof.Machine

/-! # The eight primitive operations give the answer (`30_encoding.md` R76) -/

namespace Sys2Proof.Machine

/-! ### The numbers a carry law and a borrow law determine -/

theorem Bit.eq_bitOf_iff {c : Bit} {p : Prop} [Decidable p] : c = bitOf p ↔ (c.toNat = 1 ↔ p) := by
  have hc := c.isLt
  rw [← BitVec.toNat_inj]
  by_cases hp : p
  · simp [bitOf, hp]
  · simp [bitOf, hp]
    omega

/-- The law of R100 and R115 determines the sum and the carry. -/
theorem eq_of_add_law {w : Nat} {x : BitVec w} {c : Bit} {t : Nat} (h : x.toNat + c.toNat * 2 ^ w = t) :
    x = BitVec.ofNat w t ∧ c = bitOf (2 ^ w ≤ t) := by
  have hx := x.isLt
  have hc := c.isLt
  constructor
  · apply BitVec.eq_of_toNat_eq
    rw [BitVec.toNat_ofNat, ← h, Nat.add_mul_mod_self_right, Nat.mod_eq_of_lt hx]
  · rw [Bit.eq_bitOf_iff]
    obtain h0 | h1 : c.toNat = 0 ∨ c.toNat = 1 := by omega
    · rw [h0] at h ⊢; omega
    · rw [h1] at h ⊢; omega

/-- The law of R101 and R116 determines the difference and the borrow. -/
theorem eq_of_sub_law {w : Nat} {x a b : BitVec w} {c bin : Bit}
    (h : x.toNat + b.toNat + bin.toNat = a.toNat + c.toNat * 2 ^ w) :
    x = a - b - bin.setWidth w ∧ c = bitOf (a.toNat < b.toNat + bin.toNat) := by
  have hx := x.isLt
  have hc := c.isLt
  constructor
  · have hsum : x + b + bin.setWidth w = a := by
      apply BitVec.eq_of_toNat_eq
      rw [BitVec.toNat_add, BitVec.toNat_add, BitVec.toNat_setWidth, Nat.mod_add_mod, Nat.add_mod_mod, h,
        Nat.add_mul_mod_self_right, Nat.mod_eq_of_lt a.isLt]
    rw [← hsum, add_right_comm]
    simp
  · rw [Bit.eq_bitOf_iff]
    obtain h0 | h1 : c.toNat = 0 ∨ c.toNat = 1 := by omega
    · rw [h0] at h ⊢; omega
    · rw [h1] at h ⊢; omega

theorem adc_eq {w : Nat} (a b : BitVec w) (c : Bit) :
    (adc a b c).1 = BitVec.ofNat w (a.toNat + b.toNat + c.toNat) ∧
      (adc a b c).2 = bitOf (2 ^ w ≤ a.toNat + b.toNat + c.toNat) :=
  eq_of_add_law (adc_law a b c)

theorem addWide_eq (x y : Wide) (c : Bit) :
    (addWide x y c).1 = BitVec.ofNat 512 (x.toNat + y.toNat + c.toNat) ∧
      (addWide x y c).2 = bitOf (2 ^ 512 ≤ x.toNat + y.toNat + c.toNat) :=
  eq_of_add_law (addWide_law x y c)

theorem sbb_eq {w : Nat} (a b : BitVec w) (c : Bit) :
    (sbb a b c).1 = a - b - c.setWidth w ∧ (sbb a b c).2 = bitOf (a.toNat < b.toNat + c.toNat) :=
  eq_of_sub_law (sbb_law a b c)

theorem subWide_eq (x y : Wide) (c : Bit) :
    (subWide x y c).1 = x - y - c.setWidth 512 ∧ (subWide x y c).2 = bitOf (x.toNat < y.toNat + c.toNat) :=
  eq_of_sub_law (subWide_law x y c)

theorem ofBool_isZero (x : Wide) : BitVec.ofBool (isZero x) = bitOf (x = 0) := by
  by_cases h : x = 0
  · rw [(isZero_iff x).2 h, bitOf, if_pos h]; rfl
  · rw [(isZero_eq_false_iff x).2 h, bitOf, if_neg h]; rfl

/-! ### Reading a response -/

/-- A response with status `OK` is its payload (R29). -/
theorem readResponse_of_ok {i : Instr} {l : ResultLatches} (h : l.st = statusOk) :
    readResponse i l = (readPayload i l).map Response.ok := if_pos h

/-- A response with status `DIVISION_BY_ZERO` is the error (R29). -/
theorem readResponse_of_divisionByZero {i : Instr} {l : ResultLatches} (h : l.st = statusDivisionByZero) :
    readResponse i l = .ok .divisionByZero := by
  rw [readResponse, h]; rfl

/-- The response offered is the latched operation's. -/
theorem offeredResponse_of_latched {s : State} {i : Instr} (hi : latchedOperation s = some i) :
    offeredResponse s = readResponse i s.res := by
  rw [offeredResponse, hi]

/-- Every operation but `DIVREM` completes with the response the spec gives. -/
theorem exec_primitive_answers (i : Instr) (s : State) (hi : i ≠ .divrem) :
    ∃ t, exec i s = .next t ∧ readResponse i t.res = .ok (answer i s.opnd.a s.opnd.b) := by
  cases i
  case divrem => exact absurd rfl hi
  all_goals refine ⟨_, rfl, ?_⟩
  all_goals rw [readResponse_of_ok (by simp)]
  case adcl cin => simp [readPayload, Except.map, answer, limb_setLimb0, adc_eq]
  case sbbl bin => simp [readPayload, Except.map, answer, limb_setLimb0, sbb_eq]
  case cmpw => simp [readPayload, Except.map, answer, compareWide_eq]
  case shlw bits => simp [readPayload, Except.map, answer, shiftLeft_eq]
  case shrw bits => simp [readPayload, Except.map, answer, shiftRight_eq]
  case iszw => simp [readPayload, Except.map, answer, ofBool_isZero]
  case addw cin => simp [readPayload, Except.map, answer, addWide_eq, -Nat.reducePow]
  case subw bin => simp [readPayload, Except.map, answer, subWide_eq]

end Sys2Proof.Machine

/-! # The long division divides (`41_divide.md` R134, R135) -/

namespace Sys2Proof.Machine

/-- Writing a bit over zero, with nothing set below it, adds its value. -/
theorem writeBit_toNat {x : Wide} {k : Nat} (b : Bool) (hk : k < 512) (h : 2 ^ (k + 1) ∣ x.toNat) :
    (writeBit x k b).toNat = x.toNat + b.toNat * 2 ^ k := by
  obtain ⟨m, hm⟩ := h
  have hlt : 2 ^ k < 2 ^ (k + 1) := Nat.pow_lt_pow_right (by decide) (by omega)
  rw [writeBit, ← BitVec.twoPow_eq]
  cases b with
  | true =>
    have hone : (BitVec.twoPow 512 k).toNat = 2 ^ k := by
      rw [BitVec.toNat_twoPow, Nat.mod_eq_of_lt (Nat.pow_lt_pow_right Nat.one_lt_two hk)]
    rw [if_pos rfl, BitVec.toNat_or, hone, hm, ← Nat.two_pow_add_eq_or_of_lt hlt]
    simp
  | false =>
    have hbit : x.getLsbD k = false := by
      rw [← BitVec.testBit_toNat, hm, Nat.testBit_two_pow_mul]
      simp
    have hkeep : x &&& ~~~BitVec.twoPow 512 k = x := by
      apply BitVec.eq_of_getLsbD_eq
      intro i hi
      rcases eq_or_ne i k with rfl | hik
      · simp [hbit]
      · simp [hi, hik]
    rw [if_neg (by decide), hkeep]
    simp

/-- `P_n` of R135 has `n` bits. -/
theorem dividendPrefix_lt (a : Wide) {n : Nat} (hn : n ≤ 512) : a.toNat / 2 ^ (512 - n) < 2 ^ n := by
  apply Nat.div_lt_of_lt_mul
  rw [← Nat.pow_add, show 512 - n + n = 512 by omega]
  exact a.isLt

/-- `P_(n+1)` of R135 is `P_n` followed by the next bit of the dividend. -/
theorem dividendPrefix_succ (a : Wide) {n : Nat} (hn : n < 512) :
    a.toNat / 2 ^ (512 - (n + 1)) = 2 * (a.toNat / 2 ^ (512 - n)) + (a.getLsbD (511 - n)).toNat := by
  have hpow : 2 ^ (512 - n) = 2 ^ (511 - n) * 2 := by rw [← Nat.pow_succ]; congr 1; omega
  rw [← BitVec.testBit_toNat, Nat.toNat_testBit, hpow, ← Nat.div_div_eq_div_mul,
    show 512 - (n + 1) = 511 - n by omega, Nat.div_add_mod]

/-- R135's step: the remainder and the quotient of `2 * p + c` from those of `p`, by one test against the divisor. -/
theorem div_mod_double (p : Nat) {c b : Nat} (hc : c ≤ 1) (hb : 0 < b) :
    (2 * p + c) / b = 2 * (p / b) + (if b ≤ 2 * (p % b) + c then 1 else 0) ∧
    (2 * p + c) % b = 2 * (p % b) + c - (if b ≤ 2 * (p % b) + c then b else 0) := by
  have hlt := Nat.mod_lt p hb
  have hp := Nat.div_add_mod p b
  have hmul : b * (2 * (p / b)) = 2 * (b * (p / b)) := Nat.mul_left_comm _ _ _
  rw [Nat.div_mod_unique hb]
  split
  · rw [Nat.mul_add]; omega
  · rw [Nat.mul_add]; omega

/-- The shift and the bit write at the head of an iteration (R134 step 3), with no bit lost. -/
theorem shiftIn_toNat {x : Wide} (b : Bool) (hx : x.toNat < 2 ^ 511) :
    (writeBit (shiftLeft x 1) 0 b).toNat = 2 * x.toNat + b.toNat := by
  have hshift : (shiftLeft x 1).toNat = 2 * x.toNat := by rw [shiftLeft_toNat]; omega
  rw [writeBit_toNat b (by decide) (by rw [hshift]; exact Nat.dvd_mul_right _ _), hshift]
  simp

/-- R116 with nothing borrowed. -/
theorem subWide_toNat_of_le {x y : Wide} (h : y.toNat ≤ x.toNat) : (subWide x y 0).1.toNat = x.toNat - y.toNat := by
  have hlaw := subWide_law x y 0
  have hlt := (subWide x y 0).1.isLt
  rw [show (0 : Bit).toNat = 0 from rfl] at hlaw
  omega

/-- R135: after `n` iterations the registers hold the remainder of `P_n`, the top `n` bits of the dividend, and its
quotient in the top `n` bits. -/
theorem longDivAfter_spec (a b : Wide) (hb : b ≠ 0) {n : Nat} (hn : n ≤ 512) :
    (longDivAfter a b n).2.toNat = a.toNat / 2 ^ (512 - n) % b.toNat ∧
    (longDivAfter a b n).1.toNat = a.toNat / 2 ^ (512 - n) / b.toNat * 2 ^ (512 - n) := by
  have hb0 : 0 < b.toNat := Nat.pos_of_ne_zero (by simpa [BitVec.toNat_eq] using hb)
  induction n with
  | zero =>
    rw [Nat.sub_zero, Nat.div_eq_of_lt a.isLt]
    simp [longDivAfter]
  | succ n ih =>
    obtain ⟨hrem, hquo⟩ := ih (by omega)
    have hsmall : (longDivAfter a b n).2.toNat < 2 ^ 511 := by
      rw [hrem]
      calc a.toNat / 2 ^ (512 - n) % b.toNat ≤ a.toNat / 2 ^ (512 - n) := Nat.mod_le _ _
        _ < 2 ^ n := dividendPrefix_lt a (by omega)
        _ ≤ 2 ^ 511 := Nat.pow_le_pow_right (by decide) (by omega)
    have hshift := shiftIn_toNat (a.getLsbD (511 - n)) hsmall
    obtain ⟨hdiv, hmod⟩ := div_mod_double (a.toNat / 2 ^ (512 - n)) (Bool.toNat_le (a.getLsbD (511 - n))) hb0
    rw [← hrem, ← hshift] at hdiv hmod
    have hpow : 2 ^ (512 - n) = 2 * 2 ^ (511 - n) := by rw [← Nat.pow_succ']; congr 1; omega
    rw [dividendPrefix_succ a (by omega), hdiv, hmod, longDivAfter, longDivIteration]
    simp only [ne_eq, compareWide_lt_iff, not_lt]
    split
    · rename_i hle
      have hbit : (writeBit (longDivAfter a b n).1 (511 - n) true).toNat =
          (longDivAfter a b n).1.toNat + 2 ^ (511 - n) := by
        rw [writeBit_toNat true (by omega) ⟨a.toNat / 2 ^ (512 - n) / b.toNat, ?_⟩]
        · simp
        · rw [hquo, show 511 - n + 1 = 512 - n by omega, Nat.mul_comm]
      rw [hbit, hquo, hpow, subWide_toNat_of_le hle, show 512 - (n + 1) = 511 - n by omega]
      exact ⟨rfl, by ring⟩
    · rw [show 512 - (n + 1) = 511 - n by omega, hquo, hpow]
      simp
      ring

end Sys2Proof.Machine

/-! # Digit arrays as numbers (`00_scope.md` R14, `20_memory.md` R53) -/

namespace Sys2Proof.Machine

section
variable {wd : Nat}

/-- The low digits of an array and the rest. -/
theorem digitsVal_split (ds : List (BitVec wd)) (n : Nat) :
    digitsVal ds = digitsVal (ds.take n) + 2 ^ (wd * n) * digitsVal (ds.drop n) := by
  rcases Nat.le_total n ds.length with h | h
  · conv_lhs => rw [← List.take_append_drop n ds]
    rw [digitsVal_append, List.length_take_of_le h]
  · rw [List.take_of_length_le h, List.drop_of_length_le h, digitsVal_nil, Nat.mul_zero, Nat.add_zero]

theorem digitsVal_take_lt (ds : List (BitVec wd)) (n : Nat) : digitsVal (ds.take n) < 2 ^ (wd * n) :=
  lt_of_lt_of_le (digitsVal_lt _)
    (Nat.pow_le_pow_right Nat.two_pos (Nat.mul_le_mul_left _ (List.length_take_le _ _)))

/-- The low `n` digits are the value modulo `B^n`. -/
theorem digitsVal_take (ds : List (BitVec wd)) (n : Nat) : digitsVal (ds.take n) = digitsVal ds % 2 ^ (wd * n) := by
  rw [digitsVal_split ds n, Nat.add_mul_mod_self_left, Nat.mod_eq_of_lt (digitsVal_take_lt ds n)]

/-- The digits from `n` up are the value divided by `B^n`. -/
theorem digitsVal_drop (ds : List (BitVec wd)) (n : Nat) : digitsVal (ds.drop n) = digitsVal ds / 2 ^ (wd * n) := by
  rw [digitsVal_split ds n, Nat.add_mul_div_left _ _ (Nat.two_pow_pos _),
    Nat.div_eq_of_lt (digitsVal_take_lt ds n), Nat.zero_add]

/-- One digit of a digit array, by value. -/
theorem digit_toNat (ds : List (BitVec wd)) (i : Nat) :
    (digit ds i).toNat = digitsVal ds / 2 ^ (wd * i) % 2 ^ wd := by
  rw [← digitsVal_drop, digit, List.getD_eq_getElem?_getD, ← List.head?_drop]
  cases ds.drop i with
  | nil => simp
  | cons d rest => simp [Nat.mod_eq_of_lt d.isLt]

/-- One more low digit. -/
theorem digitsVal_take_succ (ds : List (BitVec wd)) (n : Nat) :
    digitsVal (ds.take (n + 1)) = (digit ds n).toNat * 2 ^ (wd * n) + digitsVal (ds.take n) := by
  rw [digit_toNat, digitsVal_take, digitsVal_take, Nat.mul_add, Nat.mul_one, Nat.pow_add, Nat.mod_mul]
  ring

/-- The top digit and the rest. -/
theorem digitsVal_eq_top {ds : List (BitVec wd)} {n : Nat} (h : ds.length = n + 1) :
    digitsVal ds = (digit ds n).toNat * 2 ^ (wd * n) + digitsVal (ds.take n) := by
  rw [← digitsVal_take_succ, List.take_of_length_le h.le]

/-- The top two digits and the rest. -/
theorem digitsVal_eq_top_two {ds : List (BitVec wd)} {n : Nat} (h : ds.length = n + 2) :
    digitsVal ds = ((digit ds (n + 1)).toNat * 2 ^ wd + (digit ds n).toNat) * 2 ^ (wd * n) +
      digitsVal (ds.take n) := by
  rw [digitsVal_eq_top h, digitsVal_take_succ, Nat.mul_succ, Nat.pow_add]
  ring

/-- The top three digits and the rest. -/
theorem digitsVal_eq_top_three {ds : List (BitVec wd)} {n : Nat} (h : ds.length = n + 3) :
    digitsVal ds = (((digit ds (n + 2)).toNat * 2 ^ wd + (digit ds (n + 1)).toNat) * 2 ^ wd + (digit ds n).toNat) *
      2 ^ (wd * n) + digitsVal (ds.take n) := by
  rw [digitsVal_eq_top_two (n := n + 1) h, digitsVal_take_succ, Nat.mul_succ, Nat.pow_add]
  ring

theorem digit_take (ds : List (BitVec wd)) {n i : Nat} (h : i < n) : digit (ds.take n) i = digit ds i := by
  simp [digit, h]

theorem digit_drop (ds : List (BitVec wd)) (j i : Nat) : digit (ds.drop j) i = digit ds (j + i) := by
  simp [digit]

/-- Changing one digit changes the value by the difference at its place. -/
theorem digitsVal_set (ds : List (BitVec wd)) {j : Nat} (d : BitVec wd) (h : j < ds.length) :
    digitsVal (ds.set j d) + (digit ds j).toNat * 2 ^ (wd * j) = digitsVal ds + d.toNat * 2 ^ (wd * j) := by
  induction ds generalizing j with
  | nil => simp at h
  | cons x ds ih =>
    cases j with
    | zero => simp [digit]; omega
    | succ j =>
      have hds := ih (j := j) (by simpa using h)
      have hdigit : digit (x :: ds) (j + 1) = digit ds j := by simp [digit]
      rw [List.set_cons_succ, digitsVal_cons, digitsVal_cons, hdigit, Nat.mul_add, Nat.mul_one, Nat.pow_add]
      linear_combination 2 ^ wd * hds

/-- Replacing the `m` digits from `j` up by `m` others changes the value by the difference of the windows. -/
theorem digitsVal_window (us ws : List (BitVec wd)) (j m : Nat) (hj : j ≤ us.length)
    (hws : ws.length = ((us.drop j).take m).length) :
    digitsVal (us.take j ++ (ws ++ (us.drop j).drop m)) + 2 ^ (wd * j) * digitsVal ((us.drop j).take m) =
      digitsVal us + 2 ^ (wd * j) * digitsVal ws := by
  have hsplit : us = us.take j ++ ((us.drop j).take m ++ (us.drop j).drop m) := by
    rw [List.take_append_drop, List.take_append_drop]
  conv_rhs => rw [hsplit]
  simp only [digitsVal_append, hws, List.length_take_of_le hj]
  ring

/-- With zeros above them, the replaced digits bound the value. -/
theorem digitsVal_window_lt (us ws : List (BitVec wd)) {j m : Nat} (hj : j ≤ us.length) (hws : ws.length = m)
    (h : digitsVal us < 2 ^ (wd * (j + m))) :
    digitsVal (us.take j ++ (ws ++ (us.drop j).drop m)) < 2 ^ (wd * (j + m)) := by
  have habove : digitsVal ((us.drop j).drop m) = 0 := by
    rw [List.drop_drop, digitsVal_drop, Nat.div_eq_of_lt h]
  have hlow := digitsVal_lt (us.take j ++ ws)
  rw [List.length_append, List.length_take_of_le hj, hws] at hlow
  rw [← List.append_assoc, digitsVal_append, habove, Nat.mul_zero, Nat.add_zero]
  exact hlow

theorem digitsVal_eq_zero {ds : List (BitVec wd)} (h : ∀ i, digit ds i = 0) : digitsVal ds = 0 := by
  induction ds with
  | nil => rfl
  | cons d ds ih =>
    have hd : d = 0 := by simpa [digit] using h 0
    have htail : digitsVal ds = 0 := ih fun i => by simpa [digit] using h (i + 1)
    simp [hd, htail]

/-- The digits from the count of significant digits up add nothing. -/
theorem digitsVal_lt_significant (ds : List (BitVec wd)) : digitsVal ds < 2 ^ (wd * significantDigits ds) := by
  obtain ⟨-, hzero, -⟩ := significantDigits_spec ds
  have hdrop : digitsVal (ds.drop (significantDigits ds)) = 0 :=
    digitsVal_eq_zero fun i => by rw [digit_drop]; exact hzero _ (Nat.le_add_right _ _)
  rw [digitsVal_split ds (significantDigits ds), hdrop, Nat.mul_zero, Nat.add_zero]
  exact digitsVal_take_lt ds _

/-- A nonzero array has a significant digit. -/
theorem significantDigits_pos {ds : List (BitVec wd)} (h : digitsVal ds ≠ 0) : 0 < significantDigits ds := by
  have hlt := digitsVal_lt_significant ds
  rcases Nat.eq_zero_or_pos (significantDigits ds) with h0 | hpos
  · rw [h0, Nat.mul_zero, Nat.pow_zero] at hlt
    omega
  · exact hpos

end

end Sys2Proof.Machine

/-! # The trial digit (`42_knuth_d_engine.md` R157, R158, R159, R167) -/

namespace Sys2Proof.Machine

/-- R157 inside its precondition: the two-digit divider divides, and its results fit their registers. -/
theorem div2by1?_eq_some {wd : Nat} (hi lo d : BitVec wd) (hnorm : 2 ^ wd ≤ 2 * d.toNat) (hle : hi.toNat ≤ d.toNat) :
    ∃ q r, div2by1? hi lo d = some (q, r) ∧ q.toNat = (hi.toNat * 2 ^ wd + lo.toNat) / d.toNat ∧
      r.toNat = (hi.toNat * 2 ^ wd + lo.toNat) % d.toNat ∧ q.toNat ≤ 2 ^ wd + 1 ∧ r.toNat < d.toNat := by
  obtain ⟨x, hx⟩ : ∃ x, x = hi.toNat * 2 ^ wd + lo.toNat := ⟨_, rfl⟩
  have hlo := lo.isLt
  have hd := d.isLt
  have hpos : 0 < d.toNat := by omega
  have hwide : x < 2 ^ (2 * wd) := by
    rw [Nat.two_mul, Nat.pow_add]
    nlinarith
  have hquot : x / d.toNat ≤ 2 ^ wd + 1 := by
    rw [← Nat.lt_succ_iff, Nat.div_lt_iff_lt_mul hpos]
    nlinarith
  have hrem := Nat.mod_lt x hpos
  have hpow : 2 ^ (wd + 1) = 2 * 2 ^ wd := Nat.pow_succ'
  have hone : 1 < 2 ^ wd := by
    rcases Nat.eq_zero_or_pos wd with rfl | hwd
    · omega
    · exact Nat.one_lt_two_pow hwd.ne'
  refine ⟨_, _, if_pos ⟨hnorm, hle⟩, ?_⟩
  rw [← hx, div2by1Loop_eq _ _ _ _ _ hpos, Nat.zero_mul, Nat.zero_add, Nat.zero_add, Nat.mod_eq_of_lt hwide]
  dsimp only
  rw [BitVec.toNat_ofNat, BitVec.toNat_ofNat, Nat.mod_eq_of_lt (by omega), Nat.mod_eq_of_lt (by omega)]
  exact ⟨rfl, rfl, hquot, hrem⟩

/-- R167 item 2 and R169 on numbers. The dividend `x` is the number with leading digits `h, u2`, the divisor `v` the one
with leading digits `v1, v2`, each followed by less than one unit `p` of the last leading digit. The corrected trial
digit is one digit, no less than the true one, and no more than the leading digits allow. -/
theorem correctTrial_bounds {base p h u2 v1 v2 x v : Nat} (hv1 : 0 < v1) (hv2 : v2 < base) (hu2 : u2 < base)
    (hxlo : (h * base + u2) * p ≤ x) (hxhi : x < (h * base + u2 + 1) * p)
    (hvlo : (v1 * base + v2) * p ≤ v) (hvhi : v < (v1 * base + v2 + 1) * p) (hlt : x < v * base) :
    (correctTrial base v1 v2 u2 (h / v1) (h % v1)).1 < base ∧
    x < ((correctTrial base v1 v2 u2 (h / v1) (h % v1)).1 + 1) * v ∧
    (correctTrial base v1 v2 u2 (h / v1) (h % v1)).1 * ((v1 * base + v2) * p) ≤ x := by
  have hp : 0 < p := by
    rcases Nat.eq_zero_or_pos p with rfl | hp
    · omega
    · exact hp
  have hbase0 : 0 < base := by omega
  have hvpos : 0 < v := lt_of_lt_of_le (by positivity) hvlo
  have htrue : x / v * v ≤ x := Nat.div_mul_le_self x v
  have hdigit : x / v < base := Nat.div_lt_of_lt_mul hlt
  -- the two leading digits of the dividend fit the divider's bounds
  have hh : h < v1 * base + base := by
    have h1 : (h * base) * p < ((v1 * base + base) * base) * p := by
      calc (h * base) * p ≤ (h * base + u2) * p := Nat.mul_le_mul_right _ (by omega)
        _ ≤ x := hxlo
        _ < v * base := hlt
        _ ≤ ((v1 * base + v2 + 1) * p) * base := Nat.mul_le_mul_right _ hvhi.le
        _ ≤ ((v1 * base + base) * p) * base :=
          Nat.mul_le_mul_right _ (Nat.mul_le_mul_right _ (by omega))
        _ = ((v1 * base + base) * base) * p := by ring
    exact lt_of_mul_lt_mul_right (lt_of_mul_lt_mul_right h1 p.zero_le) base.zero_le
  -- a test that is true says the trial digit is above the true one
  have htest : ∀ q r, q * v1 + r = h → r * base + u2 < q * v2 → x / v < q := by
    intro q r hqr ht
    have hlead : h * base + u2 + 1 ≤ q * (v1 * base + v2) := by rw [← hqr]; linarith
    have h1 : x < q * v := by
      calc x < (h * base + u2 + 1) * p := hxhi
        _ ≤ q * (v1 * base + v2) * p := Nat.mul_le_mul_right _ hlead
        _ = q * ((v1 * base + v2) * p) := Nat.mul_assoc _ _ _
        _ ≤ q * v := Nat.mul_le_mul_left _ hvlo
    exact (Nat.div_lt_iff_lt_mul hvpos).2 h1
  have hstart : x / v ≤ h / v1 := by
    rw [Nat.le_div_iff_mul_le hv1, ← Nat.lt_succ_iff]
    have h1 : (x / v * v1) * (base * p) < (h + 1) * (base * p) := by
      calc (x / v * v1) * (base * p) ≤ x / v * ((v1 * base + v2) * p) := by
            rw [Nat.mul_assoc, ← Nat.mul_assoc v1]
            exact Nat.mul_le_mul_left _ (Nat.mul_le_mul_right _ (by omega))
        _ ≤ x / v * v := Nat.mul_le_mul_left _ hvlo
        _ ≤ x := htrue
        _ < (h * base + u2 + 1) * p := hxhi
        _ ≤ (h * base + base) * p := Nat.mul_le_mul_right _ (by omega)
        _ = (h + 1) * (base * p) := by ring
    exact lt_of_mul_lt_mul_right h1 (Nat.zero_le _)
  obtain ⟨hqr, hge, hbase, hfalse⟩ := correctTrial_law base v1 v2 u2 h (x / v) hv2 hh hdigit htest (h / v1) (h % v1)
    (Nat.div_add_mod' h v1) hstart
  refine ⟨hbase, ?_, ?_⟩
  · exact (Nat.div_lt_iff_lt_mul hvpos).1 (by omega)
  · generalize correctTrial base v1 v2 u2 (h / v1) (h % v1) = qr at *
    have hlead : qr.1 * (v1 * base + v2) ≤ h * base + u2 := by rw [← hqr]; linarith
    calc qr.1 * ((v1 * base + v2) * p) = qr.1 * (v1 * base + v2) * p := (Nat.mul_assoc _ _ _).symm
      _ ≤ (h * base + u2) * p := Nat.mul_le_mul_right _ hlead
      _ ≤ x := hxlo

section
variable {wd n : Nat} {us vs : List (BitVec wd)}

/-- The digit the correction loop of `D3B` leaves (R159) for the partial remainder `us` and the divisor `vs` of `n`
digits, from the trial quotient `q` and its remainder `r`. -/
def correctedDigit (us vs : List (BitVec wd)) (n q r : Nat) : Nat :=
  (correctTrial (2 ^ wd) (digit vs (n - 1)).toNat (if 2 ≤ n then (digit vs (n - 2)).toNat else 0)
    (if 2 ≤ n then (digit us (n - 2)).toNat else 0) q r).1

/-- The top digit of a partial remainder is at most the divisor's (R167), so the precondition of R157 holds. -/
theorem top_digit_le (hn : 1 ≤ n) (hvs : vs.length = n) (hlt : digitsVal (us.drop 1) < digitsVal vs) :
    (digit us n).toNat ≤ (digit vs (n - 1)).toNat := by
  obtain ⟨m, rfl⟩ : ∃ m, n = m + 1 := ⟨n - 1, by omega⟩
  have hv := digitsVal_eq_top hvs
  have hvlt := digitsVal_take_lt vs m
  have hu : (digit us (m + 1)).toNat * 2 ^ (wd * m) ≤ digitsVal (us.drop 1) := by
    rw [Nat.add_comm m 1, ← digit_drop, digitsVal_split (us.drop 1) (m + 1), digitsVal_take_succ, Nat.add_assoc]
    exact Nat.le_add_right _ _
  have hpow : (digit us (m + 1)).toNat * 2 ^ (wd * m) < ((digit vs m).toNat + 1) * 2 ^ (wd * m) := by
    rw [Nat.add_mul, Nat.one_mul]; omega
  exact Nat.lt_succ_iff.1 (lt_of_mul_lt_mul_right hpow (Nat.zero_le _))

/-- `correctTrial_bounds` on the digits `D3A` and `D3B` read (R158, R159). -/
theorem correctedDigit_bounds (hn : 1 ≤ n) (hus : us.length = n + 1) (hvs : vs.length = n)
    (htop : 0 < (digit vs (n - 1)).toNat) (hlt : digitsVal (us.drop 1) < digitsVal vs) (q : Nat)
    (hq : q = correctedDigit us vs n
      (((digit us n).toNat * 2 ^ wd + (digit us (n - 1)).toNat) / (digit vs (n - 1)).toNat)
      (((digit us n).toNat * 2 ^ wd + (digit us (n - 1)).toNat) % (digit vs (n - 1)).toNat)) :
    q < 2 ^ wd ∧ digitsVal us < (q + 1) * digitsVal vs ∧ q * digitsVal vs ≤ digitsVal us + digitsVal vs ∧
      (n = 1 → q * digitsVal vs ≤ digitsVal us) := by
  rw [correctedDigit] at hq
  have hB := Nat.two_pow_pos wd
  have hwhole : digitsVal us < digitsVal vs * 2 ^ wd := by
    have hlow := digitsVal_take_lt us 1
    have hhigh := Nat.mul_le_mul_left (2 ^ wd) (Nat.succ_le_of_lt hlt)
    rw [digitsVal_split us 1, Nat.mul_comm (digitsVal vs)]
    rw [Nat.mul_one] at hlow ⊢
    rw [Nat.mul_succ] at hhigh
    omega
  rcases Nat.lt_or_ge n 2 with h2 | h2
  · -- a divisor of one digit has no second digit, and the trial digit is the true one
    obtain rfl : n = 1 := by omega
    have hv : digitsVal vs = (digit vs 0).toNat := by simpa using digitsVal_eq_top hvs
    have hu : digitsVal us = (digit us 1).toNat * 2 ^ wd + (digit us 0).toNat := by
      simpa using digitsVal_eq_top_two hus
    rw [Nat.sub_self, ← hu, ← hv, if_neg (by decide), if_neg (by decide)] at hq
    rw [Nat.sub_self, ← hv] at htop
    obtain ⟨hdigit, hgt, hle⟩ := correctTrial_bounds (p := 1) (h := digitsVal us) (x := digitsVal us * 2 ^ wd)
      (v := digitsVal vs * 2 ^ wd) htop hB hB (by omega) (by omega) (by omega) (by omega)
      (Nat.mul_lt_mul_of_pos_right hwhole hB)
    rw [← hq] at hdigit hgt hle
    have hle' : q * digitsVal vs ≤ digitsVal us := le_of_mul_le_mul_right (by linarith) hB
    exact ⟨hdigit, lt_of_mul_lt_mul_right (by linarith) (Nat.zero_le (2 ^ wd)), by omega, fun _ => hle'⟩
  · obtain ⟨m, rfl⟩ : ∃ m, n = m + 2 := ⟨n - 2, by omega⟩
    have hv := digitsVal_eq_top_two hvs
    have hu := digitsVal_eq_top_three hus
    have hvl := digitsVal_take_lt vs m
    have hul := digitsVal_take_lt us m
    rw [show m + 2 - 1 = m + 1 by omega] at htop hq
    rw [if_pos h2, if_pos h2, Nat.add_sub_cancel] at hq
    obtain ⟨hdigit, hgt, hle⟩ := correctTrial_bounds (p := 2 ^ (wd * m)) (x := digitsVal us) (v := digitsVal vs)
      (h := (digit us (m + 2)).toNat * 2 ^ wd + (digit us (m + 1)).toNat) htop (digit vs m).isLt (digit us m).isLt
      (by omega) (by rw [Nat.add_mul _ 1]; omega) (by omega) (by rw [Nat.add_mul _ 1]; omega) hwhole
    rw [← hq] at hdigit hgt hle
    refine ⟨hdigit, hgt, ?_, by omega⟩
    have hrest : q * digitsVal (vs.take m) ≤ digitsVal vs := by
      calc q * digitsVal (vs.take m) ≤ 2 ^ wd * 2 ^ (wd * m) := Nat.mul_le_mul hdigit.le hvl.le
        _ ≤ ((digit vs (m + 1)).toNat * 2 ^ wd + (digit vs m).toNat) * 2 ^ (wd * m) :=
          Nat.mul_le_mul_right _ (Nat.le_add_right_of_le (Nat.le_mul_of_pos_left _ htop))
        _ ≤ digitsVal vs := by omega
    conv_lhs => rw [hv]
    rw [Nat.mul_add]
    omega

/-- R158, R159, R167 item 2, R169: for a normalized divisor of `n` digits and a partial remainder of `n + 1` digits
below `B` divisors, the trial division is inside its precondition, and the corrected trial digit is one digit, no less than
the true one and at most one more. -/
theorem trialDigit_spec (hn : 1 ≤ n) (hus : us.length = n + 1) (hvs : vs.length = n)
    (hnorm : 2 ^ wd ≤ 2 * (digit vs (n - 1)).toNat) (hlt : digitsVal (us.drop 1) < digitsVal vs) :
    ∃ q r, div2by1? (digit us n) (digit us (n - 1)) (digit vs (n - 1)) = some (q, r) ∧
      correctedDigit us vs n q.toNat r.toNat < 2 ^ wd ∧
      digitsVal us < (correctedDigit us vs n q.toNat r.toNat + 1) * digitsVal vs ∧
      correctedDigit us vs n q.toNat r.toNat * digitsVal vs ≤ digitsVal us + digitsVal vs ∧
      (n = 1 → correctedDigit us vs n q.toNat r.toNat * digitsVal vs ≤ digitsVal us) := by
  obtain ⟨q, r, hdiv, hq, hr, -, -⟩ :=
    div2by1?_eq_some (digit us n) (digit us (n - 1)) (digit vs (n - 1)) hnorm (top_digit_le hn hvs hlt)
  have htop : 0 < (digit vs (n - 1)).toNat := by have := Nat.two_pow_pos wd; omega
  exact ⟨q, r, hdiv, correctedDigit_bounds hn hus hvs htop hlt _ (by rw [hq, hr])⟩

end

end Sys2Proof.Machine

/-! # What holds between the phases of `DIVREM` (`42_knuth_d_engine.md` R153 to R169, R176) -/

namespace Sys2Proof.Machine

open Sys2Proof.Config

variable {wd nd : Nat}

/-! ### The assertions -/

/-- The status, quotient and remainder the spec gives (R131 to R133). -/
def Frame.Answered (f : Frame wd nd) : Prop :=
  (f.b = 0 → f.res.st = statusDivisionByZero) ∧
  (f.b ≠ 0 → f.res.st = statusOk ∧ f.res.q = f.a / f.b ∧ f.res.r = f.a % f.b)

/-- The divisor as normalized by `D1` (R155). -/
def Frame.divisor (f : Frame wd nd) : Nat := f.b.toNat * 2 ^ f.k.s

/-- The dividend as shifted by `D1` (R155). -/
def Frame.dividend (f : Frame wd nd) : Nat := f.a.toNat * 2 ^ f.k.s

/-- The `NSIG + 1` digits of the partial remainder at position `J` (R160). -/
def Frame.window (f : Frame wd nd) : List (BitVec wd) := (f.k.u.drop f.seq.j).take (f.k.nsig + 1)

/-- The facts R155 lists of the divisor after `D1`, and the lengths of the digit arrays (log 12). -/
structure Frame.Normalized (f : Frame wd nd) : Prop where
  divisor_ne_zero : f.b ≠ 0
  u_length : f.k.u.length = nd + 1
  v_length : f.k.v.length = nd
  qa_length : f.k.qa.length = nd
  one_le_nsig : 1 ≤ f.k.nsig
  nsig_le : f.k.nsig ≤ nd
  v_val : digitsVal (f.k.v.take f.k.nsig) = f.divisor
  v_top : 2 ^ wd ≤ 2 * (digit f.k.v (f.k.nsig - 1)).toNat

/-- The loop invariant at position `J` (R167): with the quotient digits from `place` up in `QA` the dividend is the
partial remainder `U` plus `QA` times the divisor, and `U` is below the divisor at that place. -/
structure Frame.Partial (f : Frame wd nd) (place : Nat) : Prop extends f.Normalized where
  position : f.seq.j + f.k.nsig ≤ nd
  sum : digitsVal f.k.u + digitsVal f.k.qa * f.divisor = f.dividend
  u_lt : digitsVal f.k.u < f.divisor * 2 ^ (wd * place)
  qa_low : 2 ^ (wd * place) ∣ digitsVal f.k.qa

/-- After `D3B` (R167 item 2): `QHAT` is one digit, the true quotient digit or one more. -/
structure Frame.Trial (f : Frame wd nd) : Prop extends f.Partial (f.seq.j + 1) where
  qhat_lt : f.k.qhat.toNat < 2 ^ wd
  not_below : digitsVal f.k.u < (f.k.qhat.toNat + 1) * (f.divisor * 2 ^ (wd * f.seq.j))
  at_most_one_above : f.k.qhat.toNat * (f.divisor * 2 ^ (wd * f.seq.j)) ≤
    digitsVal f.k.u + f.divisor * 2 ^ (wd * f.seq.j)

/-- After a subtraction that went negative (R160): `U` is the difference plus one unit above the window, and one divisor
brings it back. -/
def Frame.Negative (f : Frame wd nd) : Prop :=
  digitsVal f.k.u < 2 ^ (wd * (f.seq.j + f.k.nsig + 1)) ∧
  2 ^ (wd * (f.seq.j + f.k.nsig + 1)) ≤ digitsVal f.k.u + f.divisor * 2 ^ (wd * f.seq.j)

/-- After `D4` (R160): the subtraction of `QHAT` divisors at position `J` is done, and `BW` tells its sign. -/
structure Frame.Subtracted (f : Frame wd nd) : Prop extends f.Normalized where
  position : f.seq.j + f.k.nsig ≤ nd
  qa_low : 2 ^ (wd * (f.seq.j + 1)) ∣ digitsVal f.k.qa
  qhat_lt : f.k.qhat.toNat < 2 ^ wd
  sum : digitsVal f.k.u + (digitsVal f.k.qa + f.k.qhat.toNat * 2 ^ (wd * f.seq.j)) * f.divisor =
    f.dividend + f.k.bw.toNat * 2 ^ (wd * (f.seq.j + f.k.nsig + 1))
  of_no_borrow : f.k.bw = 0 → digitsVal f.k.u < f.divisor * 2 ^ (wd * f.seq.j)
  of_borrow : f.k.bw = 1 → f.k.qhat.toNat ≠ 0 ∧ f.Negative

/-- Before `D6` (R163): the stored digit is one too large. -/
structure Frame.Overdrawn (f : Frame wd nd) : Prop extends f.Normalized where
  position : f.seq.j + f.k.nsig ≤ nd
  qa_low : 2 ^ (wd * f.seq.j) ∣ digitsVal f.k.qa
  sum : digitsVal f.k.u + digitsVal f.k.qa * f.divisor =
    f.dividend + 2 ^ (wd * (f.seq.j + f.k.nsig + 1))
  digit_ne_zero : digit f.k.qa f.seq.j ≠ 0
  negative : f.Negative

/-- The division of `D3A` (R158): the two digits of `U` at the top of the window by the top digit of the divisor. -/
def Frame.trialDivision (f : Frame wd nd) : Option (BitVec (wd + 1) × BitVec (wd + 1)) :=
  div2by1? (digit f.k.u (f.seq.j + f.k.nsig)) (digit f.k.u (f.seq.j + f.k.nsig - 1)) (digit f.k.v (f.k.nsig - 1))

/-- What holds when the sequencer is about to run the phase `PH` names. -/
def Frame.Holds (f : Frame wd nd) : Prop :=
  match f.seq.ph with
  | .k0 => True
  | .k1 => f.b ≠ 0
  | .d1 => f.b ≠ 0 ∧ f.k.nsig = significantDigits (digitsOf wd nd f.b)
  | .d2 => f.Normalized ∧ digitsVal f.k.qa = 0 ∧ digitsVal f.k.u = f.dividend ∧
      f.dividend < f.divisor * 2 ^ (wd * (nd - f.k.nsig + 1))
  | .d3a => f.Partial (f.seq.j + 1)
  | .d3b => f.Partial (f.seq.j + 1) ∧ f.trialDivision = some (f.k.qhat, f.k.rhat)
  | .d4 => f.Trial
  | .d5 => f.Subtracted
  | .d6 => f.Overdrawn
  | .d7 => f.Partial f.seq.j
  | .d8 => f.Partial 0
  | .k9 => f.Answered
  | .longInit => f.b ≠ 0
  | .longIter => f.b ≠ 0 ∧ f.seq.i ≤ 511 ∧ (f.long.quo, f.long.rem) = longDivAfter f.a f.b f.seq.i
  | .longDone => f.b ≠ 0 ∧ (f.long.quo, f.long.rem) = longDivAfter f.a f.b 512

/-- A bound on the phase steps left (`70_reset_and_hazards.md` R227). -/
def Frame.stepsLeft (f : Frame wd nd) : Nat :=
  match f.seq.ph with
  | .k0 => 515
  | .k1 => 6 * nd + 4
  | .d1 => 6 * nd + 3
  | .d2 => 6 * nd + 2
  | .d3a => 6 * f.seq.j + 7
  | .d3b => 6 * f.seq.j + 6
  | .d4 => 6 * f.seq.j + 5
  | .d5 => 6 * f.seq.j + 4
  | .d6 => 6 * f.seq.j + 3
  | .d7 => 6 * f.seq.j + 2
  | .d8 => 1
  | .k9 => 0
  | .longInit => 514
  | .longIter => 513 - f.seq.i
  | .longDone => 1

/-! ### The checks and the long division -/

/-- Two wide values with the Euclidean quotient and remainder of `a` and `b` are the quotient and the remainder. -/
theorem eq_div_mod_of_toNat {a b q r : Wide} (hq : q.toNat = a.toNat / b.toNat) (hr : r.toNat = a.toNat % b.toNat) :
    q = a / b ∧ r = a % b :=
  ⟨BitVec.eq_of_toNat_eq (by rw [hq, BitVec.toNat_udiv]), BitVec.eq_of_toNat_eq (by rw [hr, BitVec.toNat_umod])⟩

theorem phaseK0_holds (e : Engine) (f : Frame wd nd) : (phaseK0 e f).Holds := by
  rcases phaseK0_cases e f with ⟨hb, h⟩ | ⟨hb, hlt, h⟩ | ⟨hb, -, h⟩ <;> rw [h]
  · exact ⟨fun _ => rfl, fun hne => absurd hb hne⟩
  · refine ⟨fun h0 => absurd h0 hb, fun _ => ⟨rfl, eq_div_mod_of_toNat ?_ ?_⟩⟩
    · simp [Nat.div_eq_of_lt hlt]
    · simp [Nat.mod_eq_of_lt hlt]
  · cases e <;> exact hb

theorem phaseK0_stepsLeft (hnd : nd ≤ 8) (e : Engine) (f : Frame wd nd) : (phaseK0 e f).stepsLeft < 515 := by
  rcases phaseK0_cases e f with ⟨-, h⟩ | ⟨-, -, h⟩ | ⟨-, -, h⟩ <;> rw [h]
  · exact Nat.succ_pos _
  · exact Nat.succ_pos _
  · cases e
    · show 6 * nd + 4 < 515; omega
    · show 514 < 515; omega

theorem phaseLongInit_holds {f : Frame wd nd} (hb : f.b ≠ 0) : (phaseLongInit f).Holds :=
  ⟨hb, Nat.zero_le _, rfl⟩

/-- An iteration that is not the last (R134 step 3). -/
theorem phaseLongIter_of_lt {f : Frame wd nd} (h : f.seq.i < 511) :
    phaseLongIter f = { f with
      long := ⟨(longDivIteration f.a f.b f.seq.i (f.long.quo, f.long.rem)).2,
        (longDivIteration f.a f.b f.seq.i (f.long.quo, f.long.rem)).1⟩
      seq := { f.seq with i := f.seq.i + 1 } } := if_pos h

/-- The last iteration, at index 511 (R134 step 3). -/
theorem phaseLongIter_of_ge {f : Frame wd nd} (h : 511 ≤ f.seq.i) :
    phaseLongIter f = ({ f with
      long := ⟨(longDivIteration f.a f.b f.seq.i (f.long.quo, f.long.rem)).2,
        (longDivIteration f.a f.b f.seq.i (f.long.quo, f.long.rem)).1⟩ }).goto .longDone := if_neg (by omega)

theorem longDivAfter_succ (a b : Wide) (n : Nat) :
    longDivAfter a b (n + 1) = longDivIteration a b n (longDivAfter a b n) := rfl

theorem phaseLongIter_holds {f : Frame wd nd} (hph : f.seq.ph = .longIter) (hb : f.b ≠ 0) (hi : f.seq.i ≤ 511)
    (hlong : (f.long.quo, f.long.rem) = longDivAfter f.a f.b f.seq.i) :
    (phaseLongIter f).Holds ∧ (phaseLongIter f).stepsLeft < f.stepsLeft := by
  rcases Nat.lt_or_ge f.seq.i 511 with h | h
  · rw [phaseLongIter_of_lt h]
    simp only [Frame.Holds, Frame.stepsLeft, hph]
    exact ⟨⟨hb, h, by rw [hlong, longDivAfter_succ]⟩, by omega⟩
  · rw [phaseLongIter_of_ge h]
    have hlast : f.seq.i = 511 := by omega
    simp only [Frame.Holds, Frame.stepsLeft, hph, Frame.goto_ph, Frame.goto_a, Frame.goto_b, Frame.goto_long]
    exact ⟨⟨hb, by rw [hlong, hlast, longDivAfter_succ _ _ 511]⟩, by omega⟩

theorem phaseLongDone_holds {f : Frame wd nd} (hb : f.b ≠ 0)
    (hlong : (f.long.quo, f.long.rem) = longDivAfter f.a f.b 512) : (phaseLongDone f).Holds := by
  obtain ⟨hrem, hquo⟩ := longDivAfter_spec f.a f.b hb (Nat.le_refl 512)
  rw [← hlong] at hrem hquo
  refine ⟨fun h0 => absurd h0 hb, fun _ => ⟨rfl, eq_div_mod_of_toNat ?_ ?_⟩⟩
  · simpa [phaseLongDone] using hquo
  · simpa [phaseLongDone] using hrem

end Sys2Proof.Machine

/-! # The phases of Algorithm D keep the assertions (`42_knuth_d_engine.md` R154 to R165) -/

namespace Sys2Proof.Machine

variable {wd nd : Nat}

/-! ### K1 and D1: counting digits and normalizing -/

/-- R154: a nonzero divisor has 1 to `ND` significant digits, its top one is not zero, and they are all of its value. -/
theorem significantDigits_divisor (hwd : wd * nd = 512) {b : Wide} (hb : b ≠ 0) :
    1 ≤ significantDigits (digitsOf wd nd b) ∧ significantDigits (digitsOf wd nd b) ≤ nd ∧
    digit (digitsOf wd nd b) (significantDigits (digitsOf wd nd b) - 1) ≠ 0 ∧
    b.toNat < 2 ^ (wd * significantDigits (digitsOf wd nd b)) := by
  have hval : digitsVal (digitsOf wd nd b) = b.toNat := by
    rw [digitsVal_digitsOf, hwd, Nat.mod_eq_of_lt b.isLt]
  obtain ⟨hle, -, htop⟩ := significantDigits_spec (digitsOf wd nd b)
  have hpos : 0 < significantDigits (digitsOf wd nd b) :=
    significantDigits_pos (by rw [hval]; simpa [BitVec.toNat_eq] using hb)
  have hlt := digitsVal_lt_significant (digitsOf wd nd b)
  rw [hval] at hlt
  rw [digitsOf_length] at hle
  exact ⟨hpos, hle, htop hpos, hlt⟩

/-- The digits of a shifted value that fits are its value. -/
theorem digitsVal_shiftLeft (hwd : wd * nd = 512) {x : Wide} {s : Nat} (h : x.toNat * 2 ^ s < 2 ^ 512) :
    digitsVal (digitsOf wd nd (shiftLeft x s)) = x.toNat * 2 ^ s := by
  rw [digitsVal_digitsOf, hwd, Nat.mod_eq_of_lt (BitVec.isLt _), shiftLeft_toNat, Nat.mod_eq_of_lt h]

/-- The digit `D1` puts above the shifted dividend (R155) is what the shift pushes out. -/
theorem pushedOut_toNat (hnd : 0 < nd) (a : Wide) {s : Nat} (hs : s < wd) (hwd : wd * nd = 512) :
    (if s = 0 then 0 else digit (digitsOf wd nd (shiftRight a (512 - s))) 0 : BitVec wd).toNat =
      a.toNat * 2 ^ s / 2 ^ 512 := by
  have ha := a.isLt
  have hs512 : s ≤ 512 := by
    rw [← hwd]
    exact hs.le.trans (Nat.le_mul_of_pos_right _ hnd)
  have hpow : 2 ^ 512 = 2 ^ (512 - s) * 2 ^ s := by rw [← Nat.pow_add, Nat.sub_add_cancel hs512]
  have hdiv : a.toNat * 2 ^ s / 2 ^ 512 = a.toNat / 2 ^ (512 - s) := by
    rw [hpow, Nat.mul_div_mul_right _ _ (Nat.two_pow_pos _)]
  rw [hdiv]
  split
  · rename_i h0
    rw [h0, Nat.sub_zero, Nat.div_eq_of_lt ha]
    simp
  · have hlt : a.toNat / 2 ^ (512 - s) < 2 ^ wd := by
      have h1 : a.toNat / 2 ^ (512 - s) < 2 ^ s := Nat.div_lt_of_lt_mul (by rw [← hpow]; exact ha)
      exact h1.trans (Nat.pow_lt_pow_right Nat.one_lt_two hs)
    rw [digit_toNat, digitsVal_digitsOf, hwd, Nat.mod_eq_of_lt (BitVec.isLt _), shiftRight_toNat, Nat.mul_zero,
      Nat.pow_zero, Nat.div_one, Nat.mod_eq_of_lt hlt]

/-- R155 on numbers: a divisor of `n` digits with top digit `t`, shifted left by the leading zeros of `t`, still has `n`
digits, and half of `B` or more on top. -/
theorem normalize_bounds {wd n s t b : Nat} (hn : 1 ≤ n) (hs : s < wd) (ht : b / 2 ^ (wd * (n - 1)) = t)
    (hlo : 2 ^ (wd - 1) ≤ t * 2 ^ s) (hhi : t * 2 ^ s < 2 ^ wd) :
    b * 2 ^ s < 2 ^ (wd * n) ∧ 2 ^ wd ≤ 2 * (b * 2 ^ s / 2 ^ (wd * (n - 1))) := by
  obtain ⟨m, rfl⟩ : ∃ m, n = m + 1 := ⟨n - 1, by omega⟩
  rw [Nat.add_sub_cancel] at ht ⊢
  have hp : 0 < 2 ^ (wd * m) := Nat.two_pow_pos _
  have hsplit : 2 ^ wd = 2 ^ (wd - s) * 2 ^ s := by rw [← Nat.pow_add, Nat.sub_add_cancel hs.le]
  constructor
  · have ht1 : t + 1 ≤ 2 ^ (wd - s) := Nat.lt_of_mul_lt_mul_right (by rw [← hsplit]; exact hhi)
    have hb : b < (t + 1) * 2 ^ (wd * m) := (Nat.div_lt_iff_lt_mul hp).1 (by omega)
    calc b * 2 ^ s < (t + 1) * 2 ^ (wd * m) * 2 ^ s := Nat.mul_lt_mul_of_pos_right hb (Nat.two_pow_pos s)
      _ ≤ 2 ^ (wd - s) * 2 ^ (wd * m) * 2 ^ s := Nat.mul_le_mul_right _ (Nat.mul_le_mul_right _ ht1)
      _ = 2 ^ (wd * (m + 1)) := by rw [Nat.mul_succ, Nat.pow_add, hsplit]; ring
  · have htop : t * 2 ^ s ≤ b * 2 ^ s / 2 ^ (wd * m) := by
      rw [Nat.le_div_iff_mul_le hp, Nat.mul_right_comm]
      exact Nat.mul_le_mul_right _ ((Nat.le_div_iff_mul_le hp).1 ht.ge)
    have hhalf : 2 ^ wd = 2 * 2 ^ (wd - 1) := by rw [← Nat.pow_succ']; congr 1; omega
    omega

/-- R155 on numbers: a dividend of `nd` digits, shifted as far as the divisor, is below the divisor at the place where
the loop starts. -/
theorem shifted_dividend_lt {a s d n : Nat} (ha : a < 2 ^ (wd * nd)) (hs : s < wd) (hn : 1 ≤ n) (hle : n ≤ nd)
    (hnorm : 2 ^ wd ≤ 2 * (d / 2 ^ (wd * (n - 1)))) : a * 2 ^ s < d * 2 ^ (wd * (nd - n + 1)) := by
  have hhalf : 2 ^ wd = 2 * 2 ^ (wd - 1) := by rw [← Nat.pow_succ']; congr 1; omega
  have hd : 2 ^ (wd - 1) * 2 ^ (wd * (n - 1)) ≤ d := (Nat.le_div_iff_mul_le (Nat.two_pow_pos _)).1 (by omega)
  have hplaces : wd * nd = wd * (n - 1) + wd * (nd - n + 1) := by rw [← Nat.mul_add]; congr 1; omega
  calc a * 2 ^ s < 2 ^ (wd * nd) * 2 ^ s := Nat.mul_lt_mul_of_pos_right ha (Nat.two_pow_pos s)
    _ ≤ 2 ^ (wd * nd) * 2 ^ (wd - 1) := Nat.mul_le_mul_left _ (Nat.pow_le_pow_right Nat.two_pos (by omega))
    _ = 2 ^ (wd - 1) * 2 ^ (wd * (n - 1)) * 2 ^ (wd * (nd - n + 1)) := by rw [hplaces, Nat.pow_add]; ring
    _ ≤ d * 2 ^ (wd * (nd - n + 1)) := Nat.mul_le_mul_right _ hd

/-- The registers `D1` writes (R155), for a shift by `s`. -/
theorem phaseD1_eq {f : Frame wd nd} {s : Nat} (h : clz? (digit (digitsOf wd nd f.b) (f.k.nsig - 1)) = some s) :
    phaseD1 f = .ok ({ f with k := { f.k with
      s := s
      v := digitsOf wd nd (shiftLeft f.b s)
      u := digitsOf wd nd (shiftLeft f.a s) ++
        [if s = 0 then 0 else digit (digitsOf wd nd (shiftRight f.a (512 - s))) 0]
      qa := List.replicate nd 0 } }.goto .d2) := by
  rw [phaseD1, h]

theorem phaseD1_holds (hwd : wd * nd = 512) {f : Frame wd nd} (hb : f.b ≠ 0)
    (hn : f.k.nsig = significantDigits (digitsOf wd nd f.b)) :
    ∃ f', phaseD1 f = .ok f' ∧ f'.seq.ph = .d2 ∧ f'.Holds := by
  obtain ⟨hpos, hle, htop, hblt⟩ := significantDigits_divisor hwd hb
  rw [← hn] at hpos hle htop hblt
  obtain ⟨s, hclz, hs, hlo, hhi⟩ := clz?_spec _ htop
  refine ⟨_, phaseD1_eq hclz, rfl, ?_⟩
  have hdigit : (digit (digitsOf wd nd f.b) (f.k.nsig - 1)).toNat = f.b.toNat / 2 ^ (wd * (f.k.nsig - 1)) := by
    rw [digit_toNat, digitsVal_digitsOf, hwd, Nat.mod_eq_of_lt f.b.isLt, Nat.mod_eq_of_lt]
    apply Nat.div_lt_of_lt_mul
    rw [← Nat.pow_add, ← Nat.mul_succ, Nat.succ_eq_add_one, Nat.sub_add_cancel hpos]
    exact hblt
  obtain ⟨hfit, hnorm⟩ := normalize_bounds hpos hs hdigit.symm hlo hhi
  have hfit' : f.b.toNat * 2 ^ s < 2 ^ 512 :=
    hfit.trans_le (Nat.pow_le_pow_right Nat.two_pos (by rw [← hwd]; exact Nat.mul_le_mul_left _ hle))
  have hv := digitsVal_shiftLeft hwd hfit'
  refine ⟨⟨hb, ?_, ?_, ?_, hpos, hle, ?_, ?_⟩, ?_, ?_, ?_⟩
  · simp [digitsOf_length]
  · simp [digitsOf_length]
  · simp
  · show digitsVal ((digitsOf wd nd (shiftLeft f.b s)).take f.k.nsig) = f.b.toNat * 2 ^ s
    rw [digitsVal_take, hv, Nat.mod_eq_of_lt hfit]
  · show 2 ^ wd ≤ 2 * (digit (digitsOf wd nd (shiftLeft f.b s)) (f.k.nsig - 1)).toNat
    rw [digit_toNat, hv, Nat.mod_eq_of_lt]
    · exact hnorm
    · apply Nat.div_lt_of_lt_mul
      rw [← Nat.pow_add, ← Nat.mul_succ, Nat.succ_eq_add_one, Nat.sub_add_cancel hpos]
      exact hfit
  · exact digitsVal_replicate_zero nd
  · show digitsVal (digitsOf wd nd (shiftLeft f.a s) ++ [_]) = f.a.toNat * 2 ^ s
    rw [digitsVal_append, digitsOf_length, digitsVal_cons, digitsVal_nil, Nat.mul_zero, Nat.add_zero,
      pushedOut_toNat (by omega) f.a hs hwd, digitsVal_digitsOf, hwd, Nat.mod_eq_of_lt (BitVec.isLt _),
      shiftLeft_toNat, Nat.mod_add_div]
  · show f.a.toNat * 2 ^ s < f.b.toNat * 2 ^ s * 2 ^ (wd * (nd - f.k.nsig + 1))
    exact shifted_dividend_lt (by rw [hwd]; exact f.a.isLt) hs hpos hle hnorm

/-! ### D2: the loop starts -/

/-- The facts of `D1` do not depend on the sequencer, the trial registers or the digits of `U` and `QA`. -/
theorem Frame.Normalized.congr {f g : Frame wd nd} (h : f.Normalized) (hb : g.b = f.b) (hs : g.k.s = f.k.s)
    (hv : g.k.v = f.k.v) (hn : g.k.nsig = f.k.nsig) (hu : g.k.u.length = f.k.u.length)
    (hqa : g.k.qa.length = f.k.qa.length) : g.Normalized where
  divisor_ne_zero := hb ▸ h.divisor_ne_zero
  u_length := hu.trans h.u_length
  v_length := by rw [hv, h.v_length]
  qa_length := hqa.trans h.qa_length
  one_le_nsig := hn ▸ h.one_le_nsig
  nsig_le := hn ▸ h.nsig_le
  v_val := by rw [hv, hn, h.v_val, divisor, divisor, hb, hs]
  v_top := by rw [hv, hn]; exact h.v_top

theorem Frame.Normalized.divisor_pos {f : Frame wd nd} (h : f.Normalized) : 0 < f.divisor :=
  Nat.mul_pos (Nat.pos_of_ne_zero (by simpa [BitVec.toNat_eq] using h.divisor_ne_zero)) (Nat.two_pow_pos _)

/-- The normalized divisor has `NSIG` digits. -/
theorem Frame.Normalized.divisor_lt {f : Frame wd nd} (h : f.Normalized) : f.divisor < 2 ^ (wd * f.k.nsig) :=
  h.v_val ▸ digitsVal_take_lt _ _

theorem phaseD2_holds {f : Frame wd nd} (hn : f.Normalized) (hqa : digitsVal f.k.qa = 0)
    (hu : digitsVal f.k.u = f.dividend) (hlt : f.dividend < f.divisor * 2 ^ (wd * (nd - f.k.nsig + 1))) :
    (phaseD2 f).Partial ((phaseD2 f).seq.j + 1) where
  toNormalized := hn.congr rfl rfl rfl rfl rfl rfl
  position := by
    show nd - f.k.nsig + f.k.nsig ≤ nd
    have := hn.nsig_le
    omega
  sum := by
    show digitsVal f.k.u + digitsVal f.k.qa * f.divisor = f.dividend
    rw [hqa, hu, Nat.zero_mul, Nat.add_zero]
  u_lt := by
    show digitsVal f.k.u < _
    rw [hu]
    exact hlt
  qa_low := by
    show _ ∣ digitsVal f.k.qa
    rw [hqa]
    exact Nat.dvd_zero _

/-! ### The window at position J -/

section
variable {f : Frame wd nd}

theorem Frame.Normalized.window_length (h : f.Normalized) (hj : f.seq.j + f.k.nsig ≤ nd) :
    f.window.length = f.k.nsig + 1 := by
  rw [window, List.length_take, List.length_drop, h.u_length]
  omega

theorem Frame.Normalized.take_v_length (h : f.Normalized) : (f.k.v.take f.k.nsig).length = f.k.nsig := by
  rw [List.length_take, h.v_length, Nat.min_eq_left h.nsig_le]

theorem Frame.Normalized.j_lt_qa_length (h : f.Normalized) (hj : f.seq.j + f.k.nsig ≤ nd) :
    f.seq.j < f.k.qa.length := by
  have := h.one_le_nsig
  rw [h.qa_length]
  omega

/-- The weight of the digit above the window. -/
theorem window_end (wd j n : Nat) : 2 ^ (wd * (j + n + 1)) = 2 ^ (wd * j) * 2 ^ (wd * (n + 1)) := by
  rw [← Nat.pow_add, ← Nat.mul_add, Nat.add_assoc]

/-- A partial remainder that ends with the window has its value at the window's place. -/
theorem Frame.window_val (h : digitsVal f.k.u < 2 ^ (wd * (f.seq.j + f.k.nsig + 1))) :
    digitsVal f.window = digitsVal f.k.u / 2 ^ (wd * f.seq.j) := by
  rw [window, digitsVal_take, digitsVal_drop, Nat.mod_eq_of_lt]
  apply Nat.div_lt_of_lt_mul
  rw [← window_end]
  exact h

/-- The loop invariant keeps the digits above the window zero. -/
theorem Frame.Partial.u_lt_window_end (h : f.Partial (f.seq.j + 1)) :
    digitsVal f.k.u < 2 ^ (wd * (f.seq.j + f.k.nsig + 1)) := by
  calc digitsVal f.k.u < f.divisor * 2 ^ (wd * (f.seq.j + 1)) := h.u_lt
    _ ≤ 2 ^ (wd * f.k.nsig) * 2 ^ (wd * (f.seq.j + 1)) := Nat.mul_le_mul_right _ h.toNormalized.divisor_lt.le
    _ = 2 ^ (wd * (f.seq.j + f.k.nsig + 1)) := by rw [← Nat.pow_add, ← Nat.mul_add]; congr 2; omega

theorem Frame.window_digit (f : Frame wd nd) {i : Nat} (h : i ≤ f.k.nsig) :
    digit f.window i = digit f.k.u (f.seq.j + i) := by
  rw [window, digit_take _ (by omega), digit_drop]

/-- The digit `D3B` leaves from the trial `(q, r)`. -/
def Frame.corrected (f : Frame wd nd) (q r : BitVec (wd + 1)) : Nat :=
  correctedDigit f.window (f.k.v.take f.k.nsig) f.k.nsig q.toNat r.toNat

/-- `trialDigit_spec` for the window (R158, R159, R167), in terms of `U`. -/
theorem Frame.Partial.trialDigit (h : f.Partial (f.seq.j + 1)) :
    ∃ q r, f.trialDivision = some (q, r) ∧ f.corrected q r < 2 ^ wd ∧
      digitsVal f.k.u < (f.corrected q r + 1) * (f.divisor * 2 ^ (wd * f.seq.j)) ∧
      f.corrected q r * (f.divisor * 2 ^ (wd * f.seq.j)) ≤ digitsVal f.k.u + f.divisor * 2 ^ (wd * f.seq.j) := by
  have hn := h.one_le_nsig
  have hval := window_val h.u_lt_window_end
  have hv : digit (f.k.v.take f.k.nsig) (f.k.nsig - 1) = digit f.k.v (f.k.nsig - 1) := digit_take _ (by omega)
  have hlt : digitsVal (f.window.drop 1) < digitsVal (f.k.v.take f.k.nsig) := by
    rw [digitsVal_drop, hval, h.v_val, Nat.div_div_eq_div_mul, ← Nat.pow_add, ← Nat.mul_add]
    exact Nat.div_lt_of_lt_mul (by rw [Nat.mul_comm]; exact h.u_lt)
  obtain ⟨q, r, hdiv, hdigit, hgt, hle, -⟩ := trialDigit_spec hn (h.toNormalized.window_length h.position)
    h.toNormalized.take_v_length (by rw [hv]; exact h.v_top) hlt
  rw [f.window_digit le_rfl, f.window_digit (by omega), hv, ← Nat.add_sub_assoc hn] at hdiv
  rw [hval, h.v_val] at hgt hle
  refine ⟨q, r, hdiv, hdigit, ?_, ?_⟩
  · rw [← Nat.mul_assoc]
    exact (Nat.div_lt_iff_lt_mul (Nat.two_pow_pos _)).1 hgt
  · calc f.corrected q r * (f.divisor * 2 ^ (wd * f.seq.j))
        = f.corrected q r * f.divisor * 2 ^ (wd * f.seq.j) := (Nat.mul_assoc _ _ _).symm
      _ ≤ (digitsVal f.k.u / 2 ^ (wd * f.seq.j) + f.divisor) * 2 ^ (wd * f.seq.j) := Nat.mul_le_mul_right _ hle
      _ ≤ digitsVal f.k.u + f.divisor * 2 ^ (wd * f.seq.j) := by
        rw [Nat.add_mul]
        exact Nat.add_le_add_right (Nat.div_mul_le_self _ _) _

/-! ### D3A and D3B -/

theorem phaseD3A_eq {q r : BitVec (wd + 1)} (h : f.trialDivision = some (q, r)) :
    phaseD3A f =
      .ok { f with k := { f.k with qhat := q, rhat := r }, seq := { f.seq with ph := .d3b, i := 2 * wd - 1 } } := by
  rw [Frame.trialDivision] at h
  simp only [phaseD3A, h]

theorem phaseD3A_holds (h : f.Partial (f.seq.j + 1)) :
    ∃ f', phaseD3A f = .ok f' ∧ f'.seq.ph = .d3b ∧ f'.seq.j = f.seq.j ∧ f'.Partial (f'.seq.j + 1) ∧
      f'.trialDivision = some (f'.k.qhat, f'.k.rhat) := by
  obtain ⟨q, r, hdiv, -⟩ := h.trialDigit
  exact ⟨_, phaseD3A_eq hdiv, rfl, rfl,
    ⟨h.toNormalized.congr rfl rfl rfl rfl rfl rfl, h.position, h.sum, h.u_lt, h.qa_low⟩, hdiv⟩

theorem phaseD3B_qhat (hn : 1 ≤ f.k.nsig) :
    (phaseD3B f).k.qhat = BitVec.ofNat (wd + 1) (f.corrected f.k.qhat f.k.rhat) := by
  have hu2 : (if 2 ≤ f.k.nsig then (digit f.window (f.k.nsig - 2)).toNat else 0) =
      (if 2 ≤ f.k.nsig then digit f.k.u (f.seq.j + f.k.nsig - 2) else 0 : BitVec wd).toNat := by
    split
    · rw [f.window_digit (by omega), Nat.add_sub_assoc ‹_›]
    · simp
  have hv2 : (if 2 ≤ f.k.nsig then (digit (f.k.v.take f.k.nsig) (f.k.nsig - 2)).toNat else 0) =
      (if 2 ≤ f.k.nsig then digit f.k.v (f.k.nsig - 2) else 0 : BitVec wd).toNat := by
    split
    · rw [digit_take _ (by omega)]
    · simp
  rw [Frame.corrected, correctedDigit, hu2, hv2, digit_take _ (by omega)]
  rfl

theorem phaseD3B_holds (h : f.Partial (f.seq.j + 1)) (hdiv : f.trialDivision = some (f.k.qhat, f.k.rhat)) :
    (phaseD3B f).Trial := by
  obtain ⟨q, r, hdiv', hdigit, hgt, hle⟩ := h.trialDigit
  obtain ⟨rfl, rfl⟩ : f.k.qhat = q ∧ f.k.rhat = r := by simpa [hdiv] using hdiv'
  have hqhat : (phaseD3B f).k.qhat.toNat = f.corrected f.k.qhat f.k.rhat := by
    rw [phaseD3B_qhat h.one_le_nsig, BitVec.toNat_ofNat, Nat.mod_eq_of_lt]
    rw [Nat.pow_succ]
    omega
  rw [← hqhat] at hdigit hgt hle
  exact ⟨⟨h.toNormalized.congr rfl rfl rfl rfl rfl rfl, h.position, h.sum, h.u_lt, h.qa_low⟩, hdigit, hgt, hle⟩

/-! ### D4: multiply and subtract -/

/-- The digits of `U` above the window. -/
def Frame.above (f : Frame wd nd) : List (BitVec wd) := (f.k.u.drop f.seq.j).drop (f.k.nsig + 1)

theorem Frame.drop_u (f : Frame wd nd) : f.k.u.drop f.seq.j = f.window ++ f.above :=
  (List.take_append_drop _ _).symm

/-- `D4` on the window: the digits below and above it are kept (R160, R161). -/
theorem phaseD4_window (hlen : f.window.length = (f.k.v.take f.k.nsig).length + 1) :
    (phaseD4 f).k.u = f.k.u.take f.seq.j ++
      ((mulSub (f.k.qhat.setWidth wd) f.window (f.k.v.take f.k.nsig) 0 0).1 ++ f.above) ∧
    (phaseD4 f).k.bw = (mulSub (f.k.qhat.setWidth wd) f.window (f.k.v.take f.k.nsig) 0 0).2 := by
  have h := mulSub_append (f.k.qhat.setWidth wd) f.window (f.k.v.take f.k.nsig) f.above 0 0 hlen
  rw [← f.drop_u] at h
  constructor
  · show f.k.u.take f.seq.j ++ (mulSub (f.k.qhat.setWidth wd) (f.k.u.drop f.seq.j) (f.k.v.take f.k.nsig) 0 0).1 = _
    rw [h]
  · show (mulSub (f.k.qhat.setWidth wd) (f.k.u.drop f.seq.j) (f.k.v.take f.k.nsig) 0 0).2 = _
    rw [h]

/-- R160, by the value of `U`: the product is taken off at position `J`, with one unit above the window added when the
subtraction goes negative; `BW` tells which. -/
theorem phaseD4_val (hn : f.Normalized) (hj : f.seq.j + f.k.nsig ≤ nd) (hq : f.k.qhat.toNat < 2 ^ wd) :
    digitsVal (phaseD4 f).k.u + f.k.qhat.toNat * (f.divisor * 2 ^ (wd * f.seq.j)) =
      digitsVal f.k.u + (phaseD4 f).k.bw.toNat * 2 ^ (wd * (f.seq.j + f.k.nsig + 1)) := by
  have hwlen := hn.window_length hj
  have hlen : f.window.length = (f.k.v.take f.k.nsig).length + 1 := by rw [hwlen, hn.take_v_length]
  obtain ⟨hu, hbw⟩ := phaseD4_window hlen
  have hlaw := mulSub_law (f.k.qhat.setWidth wd) f.window (f.k.v.take f.k.nsig) 0 0 hlen
  have hplace := digitsVal_window f.k.u (mulSub (f.k.qhat.setWidth wd) f.window (f.k.v.take f.k.nsig) 0 0).1 f.seq.j
    (f.k.nsig + 1) (by rw [hn.u_length]; omega) (by rw [mulSub_length]; rfl)
  rw [← Frame.above, ← Frame.window, ← hu] at hplace
  rw [← hbw, hwlen, hn.v_val, BitVec.toNat_setWidth, Nat.mod_eq_of_lt hq] at hlaw
  simp only [BitVec.ofNat_eq_ofNat, BitVec.toNat_ofNat, Nat.zero_mod, Nat.add_zero] at hlaw
  rw [window_end]
  linear_combination hplace + 2 ^ (wd * f.seq.j) * hlaw

/-- `D4` keeps the digits above the window zero. -/
theorem phaseD4_u_lt (hn : f.Normalized) (hj : f.seq.j + f.k.nsig ≤ nd)
    (h : digitsVal f.k.u < 2 ^ (wd * (f.seq.j + f.k.nsig + 1))) :
    (phaseD4 f).k.u.length = nd + 1 ∧ digitsVal (phaseD4 f).k.u < 2 ^ (wd * (f.seq.j + f.k.nsig + 1)) := by
  have hwlen := hn.window_length hj
  obtain ⟨hu, -⟩ := phaseD4_window (f := f) (by rw [hwlen, hn.take_v_length])
  rw [hu]
  constructor
  · rw [List.length_append, List.length_append, mulSub_length, ← List.length_append, ← f.drop_u,
      ← List.length_append, List.take_append_drop, hn.u_length]
  · exact digitsVal_window_lt _ _ (by rw [hn.u_length]; omega) (by rw [mulSub_length, hwlen]) h

theorem phaseD4_holds (h : f.Trial) : (phaseD4 f).Subtracted := by
  have hn := h.toNormalized
  have hval := phaseD4_val hn h.position h.qhat_lt
  obtain ⟨hulen, hend⟩ := phaseD4_u_lt hn h.position h.u_lt_window_end
  have hgt := h.not_below
  have hle := h.at_most_one_above
  have hsum := h.sum
  rw [Nat.add_mul, Nat.one_mul] at hgt
  refine ⟨hn.congr rfl rfl rfl rfl (hulen.trans hn.u_length.symm) rfl, h.position, h.qa_low, h.qhat_lt, ?_,
    fun h0 => ?_, fun h1 => ?_⟩
  · show digitsVal (phaseD4 f).k.u + (digitsVal f.k.qa + f.k.qhat.toNat * 2 ^ (wd * f.seq.j)) * f.divisor =
      f.dividend + (phaseD4 f).k.bw.toNat * 2 ^ (wd * (f.seq.j + f.k.nsig + 1))
    linear_combination hval + hsum
  · show digitsVal (phaseD4 f).k.u < f.divisor * 2 ^ (wd * f.seq.j)
    rw [h0, show (0 : Bit).toNat = 0 from rfl, Nat.zero_mul] at hval
    omega
  · show f.k.qhat.toNat ≠ 0 ∧ digitsVal (phaseD4 f).k.u < 2 ^ (wd * (f.seq.j + f.k.nsig + 1)) ∧
      2 ^ (wd * (f.seq.j + f.k.nsig + 1)) ≤ digitsVal (phaseD4 f).k.u + f.divisor * 2 ^ (wd * f.seq.j)
    rw [h1, show (1 : Bit).toNat = 1 from rfl, Nat.one_mul] at hval
    refine ⟨fun hq => ?_, hend, by omega⟩
    rw [hq, Nat.zero_mul] at hval
    omega

/-! ### D5: store the quotient digit -/

/-- A digit below a place that divides the value is zero. -/
theorem digit_eq_zero_of_dvd {ds : List (BitVec wd)} {j : Nat} (h : 2 ^ (wd * (j + 1)) ∣ digitsVal ds) :
    digit ds j = 0 := by
  obtain ⟨m, hm⟩ := h
  apply BitVec.eq_of_toNat_eq
  rw [digit_toNat, hm, Nat.mul_succ, Nat.pow_add, Nat.mul_assoc, Nat.mul_div_cancel_left _ (Nat.two_pow_pos _),
    Nat.mul_mod_right]
  simp

theorem pow_place_dvd (wd j : Nat) : 2 ^ (wd * j) ∣ 2 ^ (wd * (j + 1)) :=
  Nat.pow_dvd_pow 2 (Nat.mul_le_mul_left _ (Nat.le_succ j))

theorem Frame.Subtracted.qa_val (h : f.Subtracted) :
    digitsVal (phaseD5 f).k.qa = digitsVal f.k.qa + f.k.qhat.toNat * 2 ^ (wd * f.seq.j) := by
  have hj := h.toNormalized.j_lt_qa_length h.position
  have hset := digitsVal_set f.k.qa (f.k.qhat.setWidth wd) hj
  rw [digit_eq_zero_of_dvd h.qa_low, BitVec.toNat_setWidth, Nat.mod_eq_of_lt h.qhat_lt] at hset
  show digitsVal (f.k.qa.set f.seq.j (f.k.qhat.setWidth wd)) = _
  simpa using hset

theorem Frame.Subtracted.qa_dvd (h : f.Subtracted) : 2 ^ (wd * f.seq.j) ∣ digitsVal (phaseD5 f).k.qa := by
  rw [h.qa_val]
  exact Nat.dvd_add ((pow_place_dvd wd _).trans h.qa_low) (Nat.dvd_mul_left _ _)

theorem phaseD5_normalized (h : f.Subtracted) : (phaseD5 f).Normalized :=
  h.toNormalized.congr rfl rfl rfl rfl rfl List.length_set

/-- No borrow: the digit is the true one. -/
theorem phaseD5_holds_of_no_borrow (h : f.Subtracted) (h0 : f.k.bw = 0) :
    (phaseD5 f).seq.ph = .d7 ∧ (phaseD5 f).Partial f.seq.j := by
  have hsum := h.sum
  rw [h0, show (0 : Bit).toNat = 0 from rfl, Nat.zero_mul, ← h.qa_val] at hsum
  refine ⟨?_, phaseD5_normalized h, h.position, hsum, h.of_no_borrow h0, h.qa_dvd⟩
  rw [phaseD5, Frame.goto_ph, h0, if_neg (by decide)]

/-- A borrow: the digit is one too large. -/
theorem phaseD5_holds_of_borrow (h : f.Subtracted) (h1 : f.k.bw = 1) :
    (phaseD5 f).seq.ph = .d6 ∧ (phaseD5 f).Overdrawn := by
  have hsum := h.sum
  obtain ⟨hq, hneg⟩ := h.of_borrow h1
  rw [h1, show (1 : Bit).toNat = 1 from rfl, Nat.one_mul, ← h.qa_val] at hsum
  refine ⟨?_, phaseD5_normalized h, h.position, h.qa_dvd, hsum, ?_, hneg⟩
  · rw [phaseD5, Frame.goto_ph, if_pos h1]
  · show digit (f.k.qa.set f.seq.j (f.k.qhat.setWidth wd)) f.seq.j ≠ 0
    have hj := h.toNormalized.j_lt_qa_length h.position
    rw [digit_set _ _ _ _ hj, if_pos rfl]
    intro hz
    apply hq
    rw [← Nat.mod_eq_of_lt h.qhat_lt, ← BitVec.toNat_setWidth, hz]
    simp

/-! ### D6: add back -/

theorem phaseD6_window (hlen : f.window.length = (f.k.v.take f.k.nsig).length + 1) :
    (phaseD6 f).k.u = f.k.u.take f.seq.j ++ (addBack f.window (f.k.v.take f.k.nsig) 0 ++ f.above) := by
  have h := addBack_append f.window (f.k.v.take f.k.nsig) f.above 0 hlen
  rw [← f.drop_u] at h
  show f.k.u.take f.seq.j ++ addBack (f.k.u.drop f.seq.j) (f.k.v.take f.k.nsig) 0 = _
  rw [h]

/-- R163, by the value of `U`: after a subtraction that went negative the carry out cancels the borrow. -/
theorem phaseD6_val (hn : f.Normalized) (hj : f.seq.j + f.k.nsig ≤ nd) (hneg : f.Negative) :
    (phaseD6 f).k.u.length = nd + 1 ∧
    digitsVal (phaseD6 f).k.u + 2 ^ (wd * (f.seq.j + f.k.nsig + 1)) =
      digitsVal f.k.u + f.divisor * 2 ^ (wd * f.seq.j) := by
  obtain ⟨hend, hover⟩ := hneg
  have hwlen := hn.window_length hj
  have hlen : f.window.length = (f.k.v.take f.k.nsig).length + 1 := by rw [hwlen, hn.take_v_length]
  have hjlen : f.seq.j ≤ f.k.u.length := by rw [hn.u_length]; omega
  have hu := phaseD6_window hlen
  obtain ⟨cout, hcout, hlaw⟩ := addBack_law f.window (f.k.v.take f.k.nsig) 0 hlen
  have hplace := digitsVal_window f.k.u (addBack f.window (f.k.v.take f.k.nsig) 0) f.seq.j (f.k.nsig + 1) hjlen
    (by rw [addBack_length]; rfl)
  have hlt : digitsVal (phaseD6 f).k.u < 2 ^ (wd * (f.seq.j + f.k.nsig + 1)) := by
    rw [hu]
    exact digitsVal_window_lt f.k.u _ hjlen (by rw [addBack_length, hwlen]) hend
  rw [← Frame.above, ← Frame.window, ← hu] at hplace
  rw [hwlen, hn.v_val] at hlaw
  simp only [BitVec.ofNat_eq_ofNat, BitVec.toNat_ofNat, Nat.zero_mod, Nat.add_zero] at hlaw
  have hval : digitsVal (phaseD6 f).k.u + cout * 2 ^ (wd * (f.seq.j + f.k.nsig + 1)) =
      digitsVal f.k.u + f.divisor * 2 ^ (wd * f.seq.j) := by
    rw [window_end]
    linear_combination hplace + 2 ^ (wd * f.seq.j) * hlaw
  have hone : cout = 1 := by
    obtain rfl | h1 : cout = 0 ∨ cout = 1 := by omega
    · rw [Nat.zero_mul] at hval
      omega
    · exact h1
  rw [hone, Nat.one_mul] at hval
  refine ⟨?_, hval⟩
  rw [hu, List.length_append, List.length_append, addBack_length, ← List.length_append, ← f.drop_u,
    ← List.length_append, List.take_append_drop, hn.u_length]

theorem toNat_sub_one_add_one {w : Nat} {d : BitVec w} (h : d ≠ 0) : (d - 1).toNat + 1 = d.toNat := by
  have hlt := d.isLt
  have hpos : 0 < d.toNat := Nat.pos_of_ne_zero (by simpa [BitVec.toNat_eq] using h)
  have hw : 0 < w := Nat.pos_of_ne_zero (by rintro rfl; omega)
  have hone : (1 : BitVec w).toNat = 1 := BitVec.toNat_one hw
  rw [BitVec.toNat_sub_of_le (by rw [BitVec.le_def, hone]; exact hpos), hone, Nat.sub_add_cancel hpos]

theorem phaseD6_holds (h : f.Overdrawn) : (phaseD6 f).Partial f.seq.j := by
  have hn := h.toNormalized
  obtain ⟨hulen, hval⟩ := phaseD6_val hn h.position h.negative
  obtain ⟨hend, hover⟩ := h.negative
  have hsum := h.sum
  have hj := h.toNormalized.j_lt_qa_length h.position
  have hset := digitsVal_set f.k.qa (digit f.k.qa f.seq.j - 1) hj
  have hqa : digitsVal (phaseD6 f).k.qa + 2 ^ (wd * f.seq.j) = digitsVal f.k.qa := by
    show digitsVal (f.k.qa.set f.seq.j (digit f.k.qa f.seq.j - 1)) + 2 ^ (wd * f.seq.j) = digitsVal f.k.qa
    rw [← toNat_sub_one_add_one h.digit_ne_zero, Nat.add_mul, Nat.one_mul] at hset
    omega
  refine ⟨hn.congr rfl rfl rfl rfl (hulen.trans hn.u_length.symm) List.length_set, h.position, ?_, ?_, ?_⟩
  · show digitsVal (phaseD6 f).k.u + digitsVal (phaseD6 f).k.qa * f.divisor = f.dividend
    rw [← hqa] at hsum
    linarith
  · show digitsVal (phaseD6 f).k.u < f.divisor * 2 ^ (wd * f.seq.j)
    omega
  · exact (Nat.dvd_add_left (Nat.dvd_refl _)).1 (by rw [hqa]; exact h.qa_low)

/-! ### D7 and D8 -/

theorem phaseD7_holds_of_pos (h : f.Partial f.seq.j) (hj : f.seq.j ≠ 0) :
    (phaseD7 f).seq.ph = .d3a ∧ (phaseD7 f).seq.j + 1 = f.seq.j ∧ (phaseD7 f).Partial ((phaseD7 f).seq.j + 1) := by
  have heq : phaseD7 f = { f with seq := { f.seq with j := f.seq.j - 1, ph := .d3a } } := if_neg hj
  have hsucc : (phaseD7 f).seq.j + 1 = f.seq.j := by rw [heq]; exact Nat.sub_add_cancel (Nat.pos_of_ne_zero hj)
  rw [hsucc, heq]
  refine ⟨rfl, rfl, h.toNormalized.congr rfl rfl rfl rfl rfl rfl, ?_, h.sum, h.u_lt, h.qa_low⟩
  exact (Nat.add_le_add_right (Nat.sub_le _ _) _).trans h.position

theorem phaseD7_holds_of_zero (h : f.Partial f.seq.j) (hj : f.seq.j = 0) :
    (phaseD7 f).seq.ph = .d8 ∧ (phaseD7 f).Partial 0 := by
  have heq : phaseD7 f = f.goto .d8 := if_pos hj
  rw [hj] at h
  rw [heq]
  exact ⟨rfl, h.toNormalized.congr rfl rfl rfl rfl rfl rfl, h.position, h.sum, h.u_lt, h.qa_low⟩

/-- R165: the quotient digits and the un-normalized remainder are those of the operands. -/
theorem phaseD8_holds (hwd : wd * nd = 512) (h : f.Partial 0) : (phaseD8 f).Answered := by
  have hn := h.toNormalized
  have hlt : digitsVal f.k.u < f.divisor := by simpa using h.u_lt
  obtain ⟨hdiv, hmod⟩ := (Nat.div_mod_unique hn.divisor_pos).2
    ⟨(Nat.mul_comm _ _ ▸ h.sum : digitsVal f.k.u + f.divisor * digitsVal f.k.qa = f.dividend), hlt⟩
  rw [Frame.dividend, Frame.divisor, Nat.mul_div_mul_right _ _ (Nat.two_pow_pos _)] at hdiv
  rw [Frame.dividend, Frame.divisor, Nat.mul_mod_mul_right] at hmod
  have hfit : digitsVal f.k.u < 2 ^ (wd * nd) :=
    hlt.trans (hn.divisor_lt.trans_le (Nat.pow_le_pow_right Nat.two_pos (Nat.mul_le_mul_left _ hn.nsig_le)))
  have hlen : (f.k.u.take nd).length = nd := by rw [List.length_take, hn.u_length]; omega
  refine ⟨fun h0 => absurd h0 hn.divisor_ne_zero, fun _ => ⟨rfl, eq_div_mod_of_toNat ?_ ?_⟩⟩
  · show (ofDigits f.k.qa).toNat = f.a.toNat / f.b.toNat
    rw [ofDigits_toNat _ (by rw [hn.qa_length, hwd]), hdiv]
  · show (shiftRight (ofDigits (f.k.u.take nd)) f.k.s).toNat = f.a.toNat % f.b.toNat
    rw [shiftRight_toNat, ofDigits_toNat _ (by rw [hlen, hwd]), digitsVal_take, Nat.mod_eq_of_lt hfit, ← hmod,
      Nat.mul_div_cancel _ (Nat.two_pow_pos _)]

end

end Sys2Proof.Machine

/-! # A run of phases ends with the answer (`70_reset_and_hazards.md` R227, `41_divide.md` R131 to R133) -/

namespace Sys2Proof.Machine

open Sys2Proof.Config

variable {wd nd : Nat}

/-- Total correctness of a run: an assertion every phase step keeps, with a bound it lowers, holds at `K9`, which is
reached. -/
theorem runPhases_total (e : Engine) (P : Frame wd nd → Prop) (bound : Frame wd nd → Nat)
    (hstep : ∀ f, P f → f.seq.ph ≠ .k9 → ∃ f', phaseStep e f = .ok f' ∧ P f' ∧ bound f' < bound f) (fuel : Nat)
    {f : Frame wd nd} (hf : P f) (hfuel : bound f ≤ fuel) :
    ∃ f', runPhases e fuel f = .ok f' ∧ P f' ∧ f'.seq.ph = .k9 := by
  induction fuel generalizing f with
  | zero =>
    by_cases hp : f.seq.ph = .k9
    · exact ⟨f, runPhases_k9 e 0 hp, hf, hp⟩
    · obtain ⟨f', -, -, hlt⟩ := hstep f hf hp
      omega
  | succ fuel ih =>
    by_cases hp : f.seq.ph = .k9
    · exact ⟨f, runPhases_k9 e _ hp, hf, hp⟩
    · obtain ⟨f', hs, hf', hlt⟩ := hstep f hf hp
      rw [runPhases_succ e fuel hp hs]
      exact ih hf' (by omega)

/-- Every phase step but `K9`'s succeeds where its assertion holds, leads to the next phase's assertion, and leaves
fewer steps. -/
theorem phaseStep_holds (hwd : wd * nd = 512) (hnd : nd ≤ 8) (e : Engine) (f : Frame wd nd) (h : f.Holds)
    (hne : f.seq.ph ≠ .k9) : ∃ f', phaseStep e f = .ok f' ∧ f'.Holds ∧ f'.stepsLeft < f.stepsLeft := by
  cases hp : f.seq.ph <;> simp only [Frame.Holds, hp] at h <;> simp only [phaseStep, Frame.stepsLeft, hp]
  case k9 => exact absurd hp hne
  case k0 => exact ⟨_, rfl, phaseK0_holds e f, phaseK0_stepsLeft hnd e f⟩
  case k1 => exact ⟨_, rfl, ⟨h, rfl⟩, Nat.lt_succ_self _⟩
  case d1 =>
    obtain ⟨f', hs, hp', hf'⟩ := phaseD1_holds hwd h.1 h.2
    exact ⟨f', hs, hf', by rw [hp']; exact Nat.lt_succ_self _⟩
  case d2 =>
    obtain ⟨hn, hqa, hu, hlt⟩ := h
    have h1 := hn.one_le_nsig
    have h2 := hn.nsig_le
    refine ⟨_, rfl, phaseD2_holds hn hqa hu hlt, ?_⟩
    show 6 * (nd - f.k.nsig) + 7 < 6 * nd + 2
    omega
  case d3a =>
    obtain ⟨f', hs, hp', hj, hpart, hdiv⟩ := phaseD3A_holds h
    refine ⟨f', hs, ?_, ?_⟩
    · simp only [Frame.Holds, hp']
      exact ⟨hpart, hdiv⟩
    · rw [hp', hj]
      exact Nat.lt_succ_self _
  case d3b => exact ⟨_, rfl, phaseD3B_holds h.1 h.2, Nat.lt_succ_self _⟩
  case d4 => exact ⟨_, rfl, phaseD4_holds h, Nat.lt_succ_self _⟩
  case d5 =>
    refine ⟨_, rfl, ?_⟩
    rcases BitVec.eq_zero_or_eq_one f.k.bw with h0 | h1
    · obtain ⟨hp', hpart⟩ := phaseD5_holds_of_no_borrow h h0
      simp only [Frame.Holds, hp']
      exact ⟨hpart, Nat.add_lt_add_left (by decide) _⟩
    · obtain ⟨hp', hover⟩ := phaseD5_holds_of_borrow h h1
      simp only [Frame.Holds, hp']
      exact ⟨hover, Nat.lt_succ_self _⟩
  case d6 => exact ⟨_, rfl, phaseD6_holds h, Nat.lt_succ_self _⟩
  case d7 =>
    refine ⟨_, rfl, ?_⟩
    by_cases hj : f.seq.j = 0
    · obtain ⟨hp', hpart⟩ := phaseD7_holds_of_zero h hj
      simp only [Frame.Holds, hp']
      exact ⟨hpart, by omega⟩
    · obtain ⟨hp', hj', hpart⟩ := phaseD7_holds_of_pos h hj
      simp only [Frame.Holds, hp']
      exact ⟨hpart, by omega⟩
  case d8 => exact ⟨_, rfl, phaseD8_holds hwd h, Nat.lt_succ_self _⟩
  case longInit => exact ⟨_, rfl, phaseLongInit_holds h, Nat.lt_succ_self _⟩
  case longIter =>
    obtain ⟨hb, hi, hlong⟩ := h
    obtain ⟨hf', hlt⟩ := phaseLongIter_holds hp hb hi hlong
    simp only [Frame.stepsLeft, hp] at hlt
    exact ⟨_, rfl, hf', hlt⟩
  case longDone => exact ⟨_, rfl, phaseLongDone_holds h.1 h.2, Nat.lt_succ_self _⟩

/-- R227 with R131 to R133: from `K0` the phases of either engine reach `K9` with the answer. -/
theorem runPhases_answers (hwd : wd * nd = 512) (hnd : nd ≤ 8) (e : Engine) {f : Frame wd nd} (hp : f.seq.ph = .k0) :
    ∃ f', runPhases e maxPhaseSteps f = .ok f' ∧ f'.Answered ∧ f'.a = f.a ∧ f'.b = f.b := by
  have hstart : f.Holds ∧ f.stepsLeft = maxPhaseSteps := by
    simp only [Frame.Holds, Frame.stepsLeft, hp]
    exact ⟨trivial, rfl⟩
  obtain ⟨f', hrun, hf', hp'⟩ := runPhases_total e Frame.Holds Frame.stepsLeft (phaseStep_holds hwd hnd e) maxPhaseSteps
    hstart.1 hstart.2.le
  have hoperands := (runPhases_induction e (fun g => g.a = f.a ∧ g.b = f.b)
    (fun g g' hg _ hs => by
      obtain ⟨ha, hb, -⟩ := phaseStep_frame e hs
      rwa [ha, hb]) _ ⟨rfl, rfl⟩ hrun).1
  rw [Frame.Holds, hp'] at hf'
  exact ⟨f', hrun, hf', hoperands⟩

/-! ### Every operation completes with its answer -/

theorem runDivrem_answers (hwd : wd * nd = 512) (hnd : nd ≤ 8) (s : State) (k : KnuthRegs wd nd)
    (file : KnuthRegs wd nd → KnuthFile) :
    ∃ t, runDivrem s k file = .next t ∧ readResponse .divrem t.res = .ok (answer .divrem s.opnd.a s.opnd.b) := by
  obtain ⟨f, hrun, ⟨hzero, hnonzero⟩, ha, hb⟩ := runPhases_answers hwd hnd s.engine (f := s.frame k) rfl
  rw [State.frame_a] at ha
  rw [State.frame_b] at hb
  rw [hb] at hzero hnonzero
  rw [ha] at hnonzero
  refine ⟨s.ofFrame f file, by rw [runDivrem, hrun], ?_⟩
  rw [State.ofFrame_res, answer]
  by_cases h0 : s.opnd.b = 0
  · rw [if_pos h0, readResponse_of_divisionByZero (hzero h0)]
  · obtain ⟨hst, hq, hr⟩ := hnonzero h0
    rw [if_neg h0, readResponse_of_ok hst, readPayload, hq, hr]
    rfl

theorem execDivrem_answers (s : State) :
    ∃ t, execDivrem s = .next t ∧ readResponse .divrem t.res = .ok (answer .divrem s.opnd.a s.opnd.b) := by
  cases hk : s.knuth with
  | digits128 k =>
    simp only [execDivrem, hk]
    exact runDivrem_answers (by decide) (by decide) s k .digits128
  | digits64 k =>
    simp only [execDivrem, hk]
    exact runDivrem_answers (by decide) (by decide) s k .digits64

/-- R227 and R33: every operation completes, in every state, with the response the spec gives its operands. -/
theorem exec_answers (i : Instr) (s : State) :
    ∃ t, exec i s = .next t ∧ readResponse i t.res = .ok (answer i s.opnd.a s.opnd.b) := by
  by_cases hi : i = .divrem
  · rw [hi]
    exact execDivrem_answers s
  · exact exec_primitive_answers i s hi

/-- A completed busy step offers the answer to the latched request. -/
theorem exec_offers_answer {i : Instr} {s t : State} (hi : latchedOperation s = some i) (h : exec i s = .next t) :
    latchedOperation t = some i ∧ offeredResponse t = .ok (answer i t.opnd.a t.opnd.b) := by
  obtain ⟨-, -, -, hopnd, -⟩ := exec_next h
  obtain ⟨t', ht', hread⟩ := exec_answers i s
  obtain rfl : t = t' := by simpa [h] using ht'
  have hi' : latchedOperation t = some i := (latchedOperation_congr hopnd).trans hi
  rw [hopnd, offeredResponse_of_latched hi']
  exact ⟨hi', hread⟩

/-- The spec's answer is the error for `DIVREM` with a zero divisor alone (`60_exceptions.md` R200). -/
theorem answer_eq_divisionByZero {i : Instr} {a b : Wide} (h : answer i a b = .divisionByZero) :
    i = .divrem ∧ b = 0 := by
  cases i
  case divrem =>
    refine ⟨rfl, ?_⟩
    by_contra hb
    rw [answer, if_neg hb] at h
    cases h
  all_goals cases h

/-! ### The invariants of the interface -/

/-- Settles O51: a response comes to be offered by a compute step alone, which answers by `exec_answers`; a wait keeps
it. -/
theorem stepKeepsAnswerInv : Obligations.StepKeepsAnswerInv := by
  intro s t hinv h
  rcases step_next_cases h with ⟨-, rfl⟩ | ⟨-, -, -, rfl⟩ | ⟨-, -, r, rest, -, -, -, rfl⟩ |
    ⟨-, -, i, hi, hexec⟩ | ⟨-, -, -, rfl⟩ | ⟨-, -, -, r, -, rfl⟩
  · exact AnswerInv.of_ne_resp (by simp)
  · exact hinv
  · exact AnswerInv.of_ne_resp (by simp)
  · exact fun _ => ⟨i, exec_offers_answer hi hexec⟩
  · exact hinv
  · exact AnswerInv.of_ne_resp (by simp)

/-- A completed compute step meets the interface invariant. -/
theorem InterfaceInv.of_exec {i : Instr} {s t : State} (hi : latchedOperation s = some i) (h : exec i s = .next t) :
    InterfaceInv t := by
  obtain ⟨hi', hoffer⟩ := exec_offers_answer hi h
  refine ⟨fun _ => by simp [hi'], fun _ => by rw [hoffer]; rfl, fun _ hst => ?_⟩
  rw [offeredResponse_of_latched hi', readResponse_of_divisionByZero hst] at hoffer
  obtain ⟨rfl, hb⟩ := answer_eq_divisionByZero (Except.ok.inj hoffer).symm
  exact ⟨hi', hb⟩

/-- Settles O49: accept latches an operation, the compute step offers its answer, and the rest lead to an idle block or
change nothing. -/
theorem stepKeepsInterfaceInv : Obligations.StepKeepsInterfaceInv := by
  intro s t hinv h
  rcases step_next_cases h with ⟨-, rfl⟩ | ⟨-, -, -, rfl⟩ | ⟨-, -, r, rest, i, -, hd, rfl⟩ |
    ⟨-, -, i, hi, hexec⟩ | ⟨-, -, -, rfl⟩ | ⟨-, -, -, r, -, rfl⟩
  · exact InterfaceInv.of_idle rfl
  · exact hinv
  · exact ⟨fun _ => by simp [latchedOperation_accept hd], by simp, by simp⟩
  · exact InterfaceInv.of_exec hi hexec
  · exact hinv
  · exact InterfaceInv.of_idle rfl

theorem stepIdle_ne_fault (s : State) (r : Fault) : stepIdle s ≠ .fault r := by
  unfold stepIdle
  split
  · simp
  · split <;> simp

theorem stepResp_ne_fault {s : State} (h : (offeredResponse s).toOption.isSome) (r : Fault) :
    stepResp s ≠ .fault r := by
  unfold stepResp
  split
  · split
    · simp
    · rename_i e he
      rw [he] at h
      cases h
  · simp

/-- Settles O52: an idle block never faults, a busy one runs an operation that completes, and a completed one offers a
response. -/
theorem noFaultUnderTheInterfaceInv : Obligations.NoFaultUnderTheInterfaceInv := by
  rintro s ⟨hlatched, hoffer, -⟩ r
  cases hrst : s.env.rst with
  | true => simp [step, hrst]
  | false =>
    cases hifs : s.ifs with
    | idle =>
      rw [step_idle hrst hifs]
      exact stepIdle_ne_fault s r
    | busy =>
      obtain ⟨i, hi⟩ := Option.isSome_iff_exists.1 (hlatched (by simp [hifs]))
      obtain ⟨t, ht, -⟩ := exec_answers i s
      rw [step_busy hrst hifs hi, ht]
      simp
    | resp =>
      rw [step_resp hrst hifs]
      exact stepResp_ne_fault (hoffer hifs) r

end Sys2Proof.Machine

/-! # The hidden registers (`10_state.md` R31, R32; `42_knuth_d_engine.md` R176) -/

namespace Sys2Proof.Machine

open Sys2Proof.Config

variable {wd nd : Nat}

/-! ### Each engine leaves the other's registers alone -/

/-- The phases of the long division (R176). -/
def Phase.ofLongDiv : Phase → Prop
  | .k0 | .k9 | .longInit | .longIter | .longDone => True
  | _ => False

/-- The phases of Algorithm D (R152). -/
def Phase.ofKnuthD : Phase → Prop
  | .longInit | .longIter | .longDone => False
  | _ => True

/-- The long division stays in its phases and leaves the Algorithm D registers and `J` alone (R176). -/
theorem phaseStep_longDiv {f f' : Frame wd nd} (hp : f.seq.ph.ofLongDiv) (h : phaseStep .longDiv f = .ok f') :
    f'.seq.ph.ofLongDiv ∧ f'.k = f.k ∧ f'.seq.j = f.seq.j := by
  cases hph : f.seq.ph <;> rw [hph] at hp <;> rw [phaseStep, hph] at h
  case k0 =>
    cases h
    rcases phaseK0_cases .longDiv f with ⟨-, heq⟩ | ⟨-, -, heq⟩ | ⟨-, -, heq⟩ <;> rw [heq] <;>
      exact ⟨trivial, rfl, rfl⟩
  case k9 => cases h; exact ⟨by rw [hph]; trivial, rfl, rfl⟩
  case longInit => cases h; exact ⟨trivial, rfl, rfl⟩
  case longIter =>
    cases h
    rcases Nat.lt_or_ge f.seq.i 511 with hi | hi
    · rw [phaseLongIter_of_lt hi, hph]; exact ⟨trivial, rfl, rfl⟩
    · rw [phaseLongIter_of_ge hi]; exact ⟨trivial, rfl, rfl⟩
  case longDone => cases h; exact ⟨trivial, rfl, rfl⟩
  all_goals exact hp.elim

/-- Algorithm D stays in its phases and leaves `REM` and `QUO` alone. -/
theorem phaseStep_knuthD {f f' : Frame wd nd} (hp : f.seq.ph.ofKnuthD) (h : phaseStep .knuthD f = .ok f') :
    f'.seq.ph.ofKnuthD ∧ f'.long = f.long := by
  cases hph : f.seq.ph <;> rw [hph] at hp <;> rw [phaseStep, hph] at h
  case k0 =>
    cases h
    rcases phaseK0_cases .knuthD f with ⟨-, heq⟩ | ⟨-, -, heq⟩ | ⟨-, -, heq⟩ <;> rw [heq] <;> exact ⟨trivial, rfl⟩
  case d1 =>
    simp only [phaseD1] at h
    split at h <;> cases h
    exact ⟨trivial, rfl⟩
  case d3a =>
    simp only [phaseD3A] at h
    split at h <;> cases h
    exact ⟨trivial, rfl⟩
  case d5 =>
    cases h
    rw [phaseD5, Frame.goto_ph]
    split <;> exact ⟨trivial, rfl⟩
  case d7 =>
    cases h
    rw [phaseD7]
    split <;> exact ⟨trivial, rfl⟩
  case k9 => cases h; exact ⟨by rw [hph]; trivial, rfl⟩
  case longInit => exact hp.elim
  case longIter => exact hp.elim
  case longDone => exact hp.elim
  all_goals cases h; exact ⟨trivial, rfl⟩

theorem runPhases_longDiv {fuel : Nat} {f f' : Frame wd nd} (hp : f.seq.ph = .k0)
    (h : runPhases .longDiv fuel f = .ok f') : f'.k = f.k ∧ f'.seq.j = f.seq.j :=
  ((runPhases_induction .longDiv (fun g => g.seq.ph.ofLongDiv ∧ g.k = f.k ∧ g.seq.j = f.seq.j)
    (fun g g' ⟨hp, hk, hj⟩ _ hs => by
      obtain ⟨hp', hk', hj'⟩ := phaseStep_longDiv hp hs
      exact ⟨hp', hk'.trans hk, hj'.trans hj⟩) fuel ⟨by rw [hp]; trivial, rfl, rfl⟩ h).1).2

theorem runPhases_knuthD {fuel : Nat} {f f' : Frame wd nd} (hp : f.seq.ph = .k0)
    (h : runPhases .knuthD fuel f = .ok f') : f'.long = f.long :=
  ((runPhases_induction .knuthD (fun g => g.seq.ph.ofKnuthD ∧ g.long = f.long)
    (fun g g' ⟨hp, hlong⟩ _ hs => by
      obtain ⟨hp', hlong'⟩ := phaseStep_knuthD hp hs
      exact ⟨hp', hlong'.trans hlong⟩) fuel ⟨by rw [hp]; trivial, rfl⟩ h).1).2

/-- R176: each engine writes its own working registers alone. -/
theorem runDivrem_engines {s t : State} {k : KnuthRegs wd nd} {file : KnuthRegs wd nd → KnuthFile}
    (h : runDivrem s k file = .next t) :
    (s.engine = .longDiv → t.knuth = file k) ∧ (s.engine = .knuthD → t.long = s.long) := by
  obtain ⟨f, hrun, rfl⟩ := runDivrem_next h
  constructor
  · intro he
    rw [he] at hrun
    rw [State.ofFrame_knuth, (runPhases_longDiv rfl hrun).1, State.frame_k]
  · intro he
    rw [he] at hrun
    exact runPhases_knuthD rfl hrun

theorem execDivrem_engines {s t : State} (h : execDivrem s = .next t) :
    (s.engine = .longDiv → t.knuth = s.knuth) ∧ (s.engine = .knuthD → t.long = s.long) := by
  cases hk : s.knuth with
  | digits128 k => simp only [execDivrem, hk] at h; exact runDivrem_engines h
  | digits64 k => simp only [execDivrem, hk] at h; exact runDivrem_engines h

/-- Settles O44: only a compute step changes a hidden register, and among the operations only `DIVREM` does. -/
theorem hiddenRegistersBelongToDivrem : Obligations.HiddenRegistersBelongToDivrem := by
  refine ⟨fun s t h hne => ?_, fun s t h => execDivrem_engines h⟩
  rcases step_next_cases h with ⟨hrst, -⟩ | ⟨-, -, -, rfl⟩ | ⟨-, -, r, rest, -, -, -, rfl⟩ |
    ⟨-, hifs, i, hi, hexec⟩ | ⟨-, -, -, rfl⟩ | ⟨-, -, -, r, -, rfl⟩
  · exact .inl hrst
  · simp at hne
  · simp at hne
  · refine .inr ⟨hifs, ?_⟩
    by_cases hd : i = .divrem
    · rw [hi, hd]
    · obtain ⟨hseq, hlong, hknuth⟩ := exec_next_hidden hd hexec
      simp [hseq, hlong, hknuth] at hne
  · simp at hne
  · simp at hne

/-! ### Their shapes and ranges -/

theorem KnuthRegs.InRange.congr {k k' : KnuthRegs wd nd} (h : k.InRange) (hu : k'.u.length = k.u.length)
    (hv : k'.v = k.v) (hqa : k'.qa.length = k.qa.length) (hn : k'.nsig = k.nsig) (hs : k'.s = k.s) : k'.InRange := by
  obtain ⟨h1, h2, h3, h4, h5⟩ := h
  exact ⟨hu.trans h1, by rw [hv, h2], hqa.trans h3, by rw [hn]; exact h4, by rw [hs]; exact h5⟩

/-- The registers of a compute step in range, and the divisor `K1` counts the digits of is not zero (R153). -/
structure Frame.InRange (f : Frame wd nd) : Prop where
  regs : f.k.InRange
  j_lt : f.seq.j < nd
  i_le : f.seq.i ≤ 511
  divisor_ne_zero : f.seq.ph = .k1 → f.b ≠ 0

theorem clz?_lt {w s : Nat} {x : BitVec w} (h : clz? x = some s) : s < w := by
  by_cases hx : x = 0
  · rw [clz?, if_pos hx] at h
    cases h
  · obtain ⟨k, hk, hlt, -⟩ := clz?_spec x hx
    obtain rfl : s = k := by simpa [h] using hk
    exact hlt

theorem phaseD1_inRange {f f' : Frame wd nd} (h : f.InRange) (hs : phaseD1 f = .ok f') : f'.InRange := by
  obtain ⟨hu, hv, hqa, hn, hsh⟩ := h.regs
  cases hclz : clz? (digit (digitsOf wd nd f.b) (f.k.nsig - 1)) with
  | none => simp [phaseD1, hclz] at hs
  | some s =>
    rw [phaseD1_eq hclz] at hs
    cases hs
    exact ⟨⟨by simp [digitsOf_length], digitsOf_length _ _ _, List.length_replicate, hn, clz?_lt hclz⟩, h.j_lt, h.i_le,
      fun hp => nomatch hp⟩

theorem phaseD3A_inRange (hwide : wd ≤ 256) {f f' : Frame wd nd} (h : f.InRange) (hs : phaseD3A f = .ok f') :
    f'.InRange := by
  cases hdiv : f.trialDivision with
  | none =>
    rw [Frame.trialDivision] at hdiv
    simp [phaseD3A, hdiv] at hs
  | some qr =>
    rw [phaseD3A_eq hdiv] at hs
    cases hs
    refine ⟨h.regs, h.j_lt, ?_, fun hp => nomatch hp⟩
    show 2 * wd - 1 ≤ 511
    omega

/-- Every phase step keeps the ranges: `K1` writes `NSIG`, `D1` the arrays and `S`, `D2` and `D7` write `J`, `D3A` and
the long division `I`, and `D4` to `D6` keep the lengths of the arrays. -/
theorem phaseStep_inRange (hwd : wd * nd = 512) (hwide : wd ≤ 256) (e : Engine) {f f' : Frame wd nd} (h : f.InRange)
    (hs : phaseStep e f = .ok f') : f'.InRange := by
  have hregs := h.regs
  have hj := h.j_lt
  have hi := h.i_le
  obtain ⟨hu, hv, hqa, ⟨hn1, hn2⟩, hsh⟩ := h.regs
  cases hph : f.seq.ph <;> rw [phaseStep, hph] at hs
  case k0 =>
    cases hs
    rcases phaseK0_cases e f with ⟨-, heq⟩ | ⟨-, -, heq⟩ | ⟨hb, -, heq⟩ <;> rw [heq]
    · exact ⟨hregs, hj, hi, fun hp => nomatch hp⟩
    · exact ⟨hregs, hj, hi, fun hp => nomatch hp⟩
    · exact ⟨hregs, hj, hi, fun _ => hb⟩
  case k1 =>
    cases hs
    obtain ⟨hpos, hle, -, -⟩ := significantDigits_divisor hwd (h.divisor_ne_zero hph)
    exact ⟨⟨hu, hv, hqa, ⟨hpos, hle⟩, hsh⟩, hj, hi, fun hp => nomatch hp⟩
  case d1 => exact phaseD1_inRange h hs
  case d2 =>
    cases hs
    refine ⟨hregs, ?_, hi, fun hp => nomatch hp⟩
    show nd - f.k.nsig < nd
    omega
  case d3a => exact phaseD3A_inRange hwide h hs
  case d3b => cases hs; exact ⟨⟨hu, hv, hqa, ⟨hn1, hn2⟩, hsh⟩, hj, hi, fun hp => nomatch hp⟩
  case d4 =>
    cases hs
    refine ⟨hregs.congr ?_ rfl rfl rfl rfl, hj, hi, fun hp => nomatch hp⟩
    simp [phaseD4, hu]
    omega
  case d5 =>
    cases hs
    refine ⟨hregs.congr rfl rfl List.length_set rfl rfl, hj, hi, fun hp => ?_⟩
    rw [phaseD5, Frame.goto_ph] at hp
    split at hp <;> cases hp
  case d6 =>
    cases hs
    refine ⟨hregs.congr ?_ rfl List.length_set rfl rfl, hj, hi, fun hp => nomatch hp⟩
    simp [phaseD6, hu]
    omega
  case d7 =>
    cases hs
    by_cases h0 : f.seq.j = 0
    · rw [show phaseD7 f = f.goto .d8 from if_pos h0]
      exact ⟨hregs, hj, hi, fun hp => nomatch hp⟩
    · rw [show phaseD7 f = { f with seq := { f.seq with j := f.seq.j - 1, ph := .d3a } } from if_neg h0]
      exact ⟨hregs, (Nat.sub_le _ _).trans_lt hj, hi, fun hp => nomatch hp⟩
  case k9 => cases hs; exact h
  case longInit => cases hs; exact ⟨hregs, hj, Nat.zero_le _, fun hp => nomatch hp⟩
  case longIter =>
    cases hs
    rcases Nat.lt_or_ge f.seq.i 511 with hlt | hge
    · rw [phaseLongIter_of_lt hlt]
      exact ⟨hregs, hj, hlt, fun hp => by simp [hph] at hp⟩
    · rw [phaseLongIter_of_ge hge]
      exact ⟨hregs, hj, hi, fun hp => nomatch hp⟩
  all_goals cases hs; exact ⟨hregs, hj, hi, fun hp => nomatch hp⟩

theorem runDivrem_inRange (hwd : wd * nd = 512) (hwide : wd ≤ 256) {s t : State} {k : KnuthRegs wd nd}
    {file : KnuthRegs wd nd → KnuthFile} (hk : k.InRange) (hj : s.seq.j < nd) (hi : s.seq.i ≤ 511)
    (h : runDivrem s k file = .next t) : ∃ k', t.knuth = file k' ∧ k'.InRange ∧ t.seq.j < nd ∧ t.seq.i ≤ 511 := by
  obtain ⟨f, hrun, rfl⟩ := runDivrem_next h
  have hf := (runPhases_induction s.engine Frame.InRange (fun _ _ hg _ hs => phaseStep_inRange hwd hwide _ hg hs) _
    (⟨hk, hj, hi, fun hp => nomatch hp⟩ : (s.frame k).InRange) hrun).1
  exact ⟨f.k, rfl, hf.regs, hf.j_lt, hf.i_le⟩

theorem execDivrem_inRange {s t : State} (hinv : RegisterRanges s) (h : execDivrem s = .next t) : RegisterRanges t := by
  obtain ⟨hregs, hj, hi⟩ := hinv
  cases hk : s.knuth with
  | digits128 k =>
    simp only [State.digitBits, hk, KnuthFile.InRange, execDivrem] at hregs hj h
    obtain ⟨k', hk', hregs', hj', hi'⟩ := runDivrem_inRange (by decide) (by decide) hregs hj hi h
    simp only [RegisterRanges, State.digitBits, hk', KnuthFile.InRange]
    exact ⟨hregs', hj', hi'⟩
  | digits64 k =>
    simp only [State.digitBits, hk, KnuthFile.InRange, execDivrem] at hregs hj h
    obtain ⟨k', hk', hregs', hj', hi'⟩ := runDivrem_inRange (by decide) (by decide) hregs hj hi h
    simp only [RegisterRanges, State.digitBits, hk', KnuthFile.InRange]
    exact ⟨hregs', hj', hi'⟩

/-- The ranges speak of the hidden registers alone. -/
theorem RegisterRanges.congr {s t : State} (h : RegisterRanges s) (hknuth : t.knuth = s.knuth) (hseq : t.seq = s.seq) :
    RegisterRanges t := by
  rw [RegisterRanges, hknuth, hseq, digitBits_congr hknuth]
  exact h

/-- Settles O50: `DIVREM` keeps the ranges phase by phase, reset restores them, and nothing else writes a hidden
register. -/
theorem stepKeepsRegisterRanges : Obligations.StepKeepsRegisterRanges := by
  intro s t hinv h
  rcases step_next_cases h with ⟨-, rfl⟩ | ⟨-, -, -, rfl⟩ | ⟨-, -, r, rest, -, -, -, rfl⟩ |
    ⟨-, -, i, -, hexec⟩ | ⟨-, -, -, rfl⟩ | ⟨-, -, -, r, -, rfl⟩
  · exact RegisterRanges.applyReset s
  · exact hinv
  · exact hinv.congr rfl rfl
  · by_cases hd : i = .divrem
    · rw [hd] at hexec
      exact execDivrem_inRange hinv hexec
    · obtain ⟨hseq, -, hknuth⟩ := exec_next_hidden hd hexec
      exact hinv.congr hknuth hseq
  · exact hinv
  · exact hinv.congr rfl rfl

end Sys2Proof.Machine

/-! # The digit views and the limbs (`20_memory.md` R51, R53) -/

namespace Sys2Proof.Machine

/-- Digits that cover the 512 bits have the value of the whole (R53). -/
theorem digitsVal_digitsOf_wide {wd nd : Nat} (hwd : wd * nd = 512) (x : Wide) :
    digitsVal (digitsOf wd nd x) = x.toNat := by
  rw [digitsVal_digitsOf, hwd, Nat.mod_eq_of_lt x.isLt]

/-- A digit of a view that covers the 512 bits, by value. -/
theorem digit_digitsOf_toNat {wd nd : Nat} (hwd : wd * nd = 512) (x : Wide) (i : Nat) :
    (digit (digitsOf wd nd x) i).toNat = x.toNat / 2 ^ (wd * i) % 2 ^ wd := by
  rw [digit_toNat, digitsVal_digitsOf_wide hwd]

/-- Digit `2k` of 64 bits is the low half of limb `k`. -/
theorem digit_even_toNat (x : Wide) (k : Nat) :
    (digit (digitsOf 64 8 x) (2 * k)).toNat = (limb x k).toNat % 2 ^ 64 := by
  rw [digit_digitsOf_toNat (by decide), limb_toNat, Nat.mod_mod_of_dvd _ (by decide), ← Nat.mul_assoc]

/-- Digit `2k + 1` of 64 bits is the high half of limb `k`. -/
theorem digit_odd_toNat (x : Wide) (k : Nat) :
    (digit (digitsOf 64 8 x) (2 * k + 1)).toNat = (limb x k).toNat / 2 ^ 64 := by
  have hplace : 2 ^ (64 * (2 * k + 1)) = 2 ^ (128 * k) * 2 ^ 64 := by rw [← Nat.pow_add]; congr 1; omega
  have hlimb : 2 ^ 128 = 2 ^ 64 * 2 ^ 64 := by decide
  rw [digit_digitsOf_toNat (by decide), limb_toNat, hplace, hlimb, ← Nat.div_div_eq_div_mul,
    Nat.mod_mul_left_div_self]

/-- Settles O24: the digits of either width cover the 512 bits, and limb `k` holds two digits of 64 bits or one of
128. -/
theorem digitViewsHaveTheValue : Obligations.DigitViewsHaveTheValue := fun x =>
  ⟨digitsVal_digitsOf_wide (by decide) x, digitsVal_digitsOf_wide (by decide) x, fun k hk =>
    ⟨digit_even_toNat x k, digit_odd_toNat x k, digitsOf_digit 128 4 x k hk⟩⟩

end Sys2Proof.Machine

/-! # A block that serves answers what it is offered (`20_memory.md` R58, `10_state.md` R35) -/

namespace Sys2Proof.Machine

/-- A run of any machine whose first step succeeds goes on from the state after it. -/
theorem run_succ {M : Host.Core} {s t : M.State} (h : M.step s = .next t) (n : Nat) : M.run (n + 1) s = M.run n t := by
  rw [Host.Core.run, h]

/-- A legal request has an answer, that of the operation its header decodes to. -/
theorem answerRequest_of_legal {r : Request} (h : (decode r.hdr).instr?.isSome) :
    ∃ i, decode r.hdr = .operation i ∧ answerRequest r = some (answer i r.a r.b) := by
  cases hd : decode r.hdr with
  | operation i => exact ⟨i, rfl, by rw [answerRequest, hd]; rfl⟩
  | reserved why => rw [hd] at h; cases h

/-- Accept, compute and deliver (R35): one request of a block that serves, from its accept to its response. -/
theorem serving_steps {s : State} {r : Request} {rest : List Request} {i : Instr} (hs : Serving s)
    (ho : s.env.offers = r :: rest) (hd : decode r.hdr = .operation i) :
    ∃ t, step s = .next (s.accept r rest) ∧ step (s.accept r rest) = .next t ∧
      step t = .next (t.deliver (answer i r.a r.b)) ∧ t.env = { s.env with offers := rest } := by
  obtain ⟨hidle, hrst, hwill⟩ := hs
  have haccept : step s = .next (s.accept r rest) := (step_idle hrst hidle).trans (stepIdle_accepts ho hd)
  have hlatched : latchedOperation (s.accept r rest) = some i := latchedOperation_accept hd
  obtain ⟨t, hexec, -⟩ := exec_answers i (s.accept r rest)
  obtain ⟨hresp, -, -, hopnd, henv⟩ := exec_next hexec
  obtain ⟨-, hoffer⟩ := exec_offers_answer hlatched hexec
  rw [hopnd] at hoffer
  have hdeliver : stepResp t = .next (t.deliver (answer i r.a r.b)) :=
    stepResp_delivers (by rw [henv]; exact hwill) hoffer
  exact ⟨t, haccept, (step_busy (s := s.accept r rest) hrst rfl hlatched).trans hexec,
    (step_resp (by rw [henv]; exact hrst) hresp).trans hdeliver, henv⟩

/-- Three steps of a block that serves answer the request at the head of its offers, and the block serves again. -/
theorem serving_answers_head {s : State} {r : Request} {rest : List Request} {i : Instr} (hs : Serving s)
    (ho : s.env.offers = r :: rest) (hd : decode r.hdr = .operation i) :
    ∃ t : State, (∀ n, Host.Core.run Sys2Proof.core (n + 3) s = Host.Core.run Sys2Proof.core n t) ∧ Serving t ∧
      t.env.offers = rest ∧ t.env.delivered = s.env.delivered ++ [answer i r.a r.b] := by
  obtain ⟨t, haccept, hcompute, hdeliver, henv⟩ := serving_steps hs ho hd
  obtain ⟨-, hrst, hwill⟩ := hs
  refine ⟨t.deliver (answer i r.a r.b), fun n => ?_, ⟨rfl, ?_, ?_⟩, ?_, ?_⟩
  · exact (run_succ (M := Sys2Proof.core) haccept (n + 2)).trans
      ((run_succ (M := Sys2Proof.core) hcompute (n + 1)).trans (run_succ (M := Sys2Proof.core) hdeliver n))
  all_goals simp [henv, hrst, hwill]

/-- Settles O53, by induction on the requests: the first takes three steps, after which the block serves the others. -/
theorem requestsAreAnsweredInOrder : Obligations.RequestsAreAnsweredInOrder := by
  intro reqs
  induction reqs with
  | nil =>
    intro rest s hs ho _
    exact ⟨s, rfl, hs, ho, by simp⟩
  | cons r reqs ih =>
    intro rest s hs ho hlegal
    obtain ⟨hr, hreqs⟩ := List.forall_mem_cons.1 hlegal
    obtain ⟨i, hd, hanswer⟩ := answerRequest_of_legal hr
    obtain ⟨t, hrun, ht, hoffers, hdelivered⟩ := serving_answers_head hs ho hd
    obtain ⟨u, hrun', hu, hoffers', hdelivered'⟩ := ih rest t ht hoffers hreqs
    refine ⟨u, (hrun _).trans hrun', hu, hoffers', ?_⟩
    rw [hdelivered', hdelivered, List.filterMap_cons_some hanswer, List.append_assoc, List.singleton_append]

end Sys2Proof.Machine

/-! # Headers and request vectors by their fields (`30_encoding.md` R70, R71) -/

namespace Sys2Proof

/-! ### A vector of three fields -/

section
variable {a b c : Nat} (x : BitVec a) (y : BitVec b) (z : BitVec c)

theorem extract_high_field : (x ++ y ++ z).extractLsb' (b + c) a = x := by
  rw [BitVec.extractLsb'_append_eq_of_le (Nat.le_add_left c b), Nat.add_sub_cancel, BitVec.extractLsb'_append_eq_left]

theorem extract_middle_field : (x ++ y ++ z).extractLsb' c b = y := by
  rw [BitVec.extractLsb'_append_eq_of_le le_rfl, Nat.sub_self, BitVec.extractLsb'_append_eq_right]

/-- A vector is made of its own three fields. -/
theorem append_fields (v : BitVec (a + b + c)) :
    v.extractLsb' (b + c) a ++ v.extractLsb' c b ++ v.extractLsb' 0 c = v := by
  rw [BitVec.extractLsb'_append_extractLsb'_eq_extractLsb' (Nat.add_comm b c),
    BitVec.extractLsb'_append_extractLsb'_eq_extractLsb' (Nat.zero_add c).symm, BitVec.extractLsb'_eq_self]

end

/-! ### A header and its three fields (R71) -/

section
variable (op : BitVec 4) (rsv : BitVec 2) (aux : Aux)

@[simp] theorem headerOp_headerOfFields : headerOp (headerOfFields op rsv aux) = op := extract_high_field op rsv aux

@[simp] theorem headerRsv_headerOfFields : headerRsv (headerOfFields op rsv aux) = rsv := extract_middle_field op rsv aux

@[simp] theorem headerAux_headerOfFields : headerAux (headerOfFields op rsv aux) = aux :=
  BitVec.extractLsb'_append_eq_right

theorem headerOfFields_toNat :
    (headerOfFields op rsv aux).toNat = 4096 * op.toNat + 1024 * rsv.toNat + aux.toNat := by
  rw [headerOfFields, BitVec.toNat_append, BitVec.toNat_append, ← Nat.shiftLeft_add_eq_or_of_lt aux.isLt,
    ← Nat.shiftLeft_add_eq_or_of_lt rsv.isLt]
  omega

end

/-- A header is made of its own three fields. -/
theorem headerOfFields_fields (h : Header) : headerOfFields (headerOp h) (headerRsv h) (headerAux h) = h :=
  append_fields (a := 4) (b := 2) (c := 10) h

/-- A header as a number, by its fields. -/
theorem header_toNat (h : Header) :
    h.toNat = 4096 * (headerOp h).toNat + 1024 * (headerRsv h).toNat + (headerAux h).toNat := by
  rw [← headerOfFields_toNat, headerOfFields_fields]

/-- Two headers are equal when their fields are. -/
theorem headerOfFields_inj {op op' : BitVec 4} {rsv rsv' : BitVec 2} {aux aux' : Aux} :
    headerOfFields op rsv aux = headerOfFields op' rsv' aux' ↔ op = op' ∧ rsv = rsv' ∧ aux = aux' := by
  constructor
  · intro h
    exact ⟨by simpa using congrArg headerOp h, by simpa using congrArg headerRsv h, by simpa using congrArg headerAux h⟩
  · rintro ⟨rfl, rfl, rfl⟩
    rfl

/-- The header of an operation as a number: its row's `match` value and its auxiliary value. -/
theorem encode_toNat (i : Instr) : (encode i).toNat = 4096 * (opcode i).toNat + (auxOf i).toNat := by
  rw [encode, headerOfFields_toNat]
  simp

/-! ### The request vector (R70) -/

/-- Settles O4, by the places of three fields in a vector. -/
theorem requestVectorHoldsItsFields : Obligations.RequestVectorHoldsItsFields := by
  refine ⟨fun r => ?_, fun v => append_fields (a := 16) (b := 512) (c := 512) v⟩
  have hhdr : r.toVector.extractLsb' 1024 16 = r.hdr := extract_high_field r.hdr r.b r.a
  have hb : r.toVector.extractLsb' 512 512 = r.b := extract_middle_field r.hdr r.b r.a
  have ha : r.toVector.extractLsb' 0 512 = r.a := BitVec.extractLsb'_append_eq_right
  exact ⟨hhdr, hb, ha, by rw [Request.ofVector, hhdr, hb, ha]⟩

end Sys2Proof

/-! # What the decoder answers (`30_encoding.md` R72, R74, R80) -/

namespace Sys2Proof

open Sys2Proof.Machine

/-! ### Legal headers -/

/-- How many auxiliary values R72 makes legal for an operation code: they are those below this number. -/
def legalAuxCount : Nat → Nat
  | 0x1 | 0x2 | 0x8 | 0x9 => 2
  | 0x3 | 0x6 | 0x7 => 1
  | 0x4 | 0x5 => 1024
  | _ => 0

/-- A header that is not reserved, by its fields. -/
def LegalHeader (h : Header) : Prop :=
  headerRsv h = 0 ∧ (headerAux h).toNat < legalAuxCount (headerOp h).toNat

/-- R74's list of the reserved headers is the complement of the legal ones, for each operation code. -/
theorem reservedByRule_iff (h : Header) : reservedByRule h ↔ ¬ LegalHeader h := by
  have hop := (headerOp h).isLt
  have haux := (headerAux h).isLt
  unfold reservedByRule LegalHeader
  generalize (headerOp h).toNat = op at hop
  by_cases hrsv : headerRsv h = 0
  · interval_cases op <;> simp [legalAuxCount, hrsv] <;> omega
  · exact iff_of_true (.inr (.inr (.inl hrsv))) fun hlegal => hrsv hlegal.1

theorem legalAuxCount_le (op : Nat) : legalAuxCount op ≤ 1024 := by
  unfold legalAuxCount
  split <;> decide

/-- Within the 4096 headers of an operation code the legal ones come first. -/
theorem legalHeader_iff_toNat (h : Header) : LegalHeader h ↔ h.toNat % 4096 < legalAuxCount (h.toNat / 4096) := by
  have haux := (headerAux h).isLt
  have hrsv := (headerRsv h).isLt
  have hop : h.toNat / 4096 = (headerOp h).toNat := by rw [header_toNat h]; omega
  have hcount := legalAuxCount_le (headerOp h).toNat
  have hzero : headerRsv h = 0 ↔ (headerRsv h).toNat = 0 := BitVec.toNat_inj.symm
  rw [LegalHeader, hzero, hop, header_toNat h]
  omega

/-! ### Every branch of the decoder -/

/-- The decoder reads the operation an operation's header was written for. -/
theorem decode_encode (i : Instr) : decode (encode i) = .operation i := by
  cases i with
  | cmpw | iszw | divrem => rfl
  | shlw k | shrw k => simp [decode, encode, opcode, auxOf]
  | adcl c | sbbl c | addw c | subw c => revert c; decide

/-- A decoding agrees with a header: an operation has this header, and it is legal; `reserved` is for a header that is not
legal. -/
def Decoded.AgreesWith : Decoded → Header → Prop
  | .operation i, h => encode i = h ∧ LegalHeader h
  | .reserved _, h => ¬ LegalHeader h

/-- R72's test of `aux[9:1]` is a bound on the value. -/
theorem high_bits_eq_zero_iff (aux : Aux) : aux.extractLsb' 1 9 = 0 ↔ aux.toNat < 2 := by
  rw [← BitVec.toNat_inj, BitVec.extractLsb'_toNat, Nat.shiftRight_eq_div_pow]
  show _ = 0 ↔ _
  omega

/-- An auxiliary value below 2 is its lowest bit. -/
theorem setWidth_low_bit {aux : Aux} (h : aux.toNat < 2) : (aux.extractLsb' 0 1).setWidth 10 = aux := by
  apply BitVec.eq_of_toNat_eq
  rw [BitVec.toNat_setWidth, BitVec.extractLsb'_toNat, Nat.shiftRight_zero]
  omega

section
variable {h : Header} (hrsv : headerRsv h = 0)
include hrsv

/-- An operation with the opcode and the auxiliary value of a header encodes to that header. -/
theorem encode_eq_of_fields {i : Instr} (hop : headerOp h = opcode i) (haux : headerAux h = auxOf i) : encode i = h := by
  rw [encode, ← hop, ← haux, ← hrsv, headerOfFields_fields]

theorem decodeCarryIn_agrees {mk : Bit → Instr} (hop : ∀ c, headerOp h = opcode (mk c))
    (haux : ∀ c, auxOf (mk c) = c.setWidth 10) (hcount : legalAuxCount (headerOp h).toNat = 2) :
    (decodeCarryIn (headerAux h) mk).AgreesWith h := by
  unfold decodeCarryIn
  split
  next hzero =>
    have hlt := (high_bits_eq_zero_iff _).1 hzero
    exact ⟨encode_eq_of_fields hrsv (hop _) ((setWidth_low_bit hlt).symm.trans (haux _).symm), hrsv, by rwa [hcount]⟩
  next hne =>
    rintro ⟨-, hlt⟩
    exact hne ((high_bits_eq_zero_iff _).2 (by rwa [hcount] at hlt))

theorem decodePlain_agrees {i : Instr} (hop : headerOp h = opcode i) (haux : auxOf i = 0)
    (hcount : legalAuxCount (headerOp h).toNat = 1) : (decodePlain (headerAux h) i).AgreesWith h := by
  unfold decodePlain
  split
  next hzero => exact ⟨encode_eq_of_fields hrsv hop (hzero.trans haux.symm), hrsv, by rw [hcount, hzero]; decide⟩
  next hne =>
    rintro ⟨-, hlt⟩
    rw [hcount] at hlt
    exact hne (BitVec.eq_of_toNat_eq (Nat.lt_one_iff.1 hlt))

end

/-- An operation code no operation has makes no auxiliary value legal. -/
theorem legalAuxCount_eq_zero {op : BitVec 4} (h : op ∉ [1, 2, 3, 4, 5, 6, 7, 8, 9]) : legalAuxCount op.toNat = 0 := by
  revert op
  decide

/-- Each branch of the decoder agrees with the header it was given. -/
theorem decode_agrees (h : Header) : (decode h).AgreesWith h := by
  simp only [decode]
  split_ifs with hrsv h1 h2 h3 h4 h5 h6 h7 h8 h9
  · exact fun hlegal => hrsv hlegal.1
  all_goals rw [ne_eq, not_not] at hrsv
  · exact decodeCarryIn_agrees hrsv (fun _ => h1) (fun _ => rfl) (by rw [h1]; rfl)
  · exact decodeCarryIn_agrees hrsv (fun _ => h2) (fun _ => rfl) (by rw [h2]; rfl)
  · exact decodePlain_agrees hrsv h3 rfl (by rw [h3]; rfl)
  · exact ⟨encode_eq_of_fields hrsv h4 rfl, hrsv, by rw [h4]; exact (headerAux h).isLt⟩
  · exact ⟨encode_eq_of_fields hrsv h5 rfl, hrsv, by rw [h5]; exact (headerAux h).isLt⟩
  · exact decodePlain_agrees hrsv h6 rfl (by rw [h6]; rfl)
  · exact decodePlain_agrees hrsv h7 rfl (by rw [h7]; rfl)
  · exact decodeCarryIn_agrees hrsv (fun _ => h8) (fun _ => rfl) (by rw [h8]; rfl)
  · exact decodeCarryIn_agrees hrsv (fun _ => h9) (fun _ => rfl) (by rw [h9]; rfl)
  · rintro ⟨-, hlt⟩
    rw [legalAuxCount_eq_zero (by simp_all)] at hlt
    exact Nat.not_lt_zero _ hlt

theorem encode_eq_of_decode {h : Header} {i : Instr} (hd : decode h = .operation i) : encode i = h := by
  have hagrees := decode_agrees h
  rw [hd] at hagrees
  exact hagrees.1

theorem exists_decode_eq_operation_iff (h : Header) : (∃ i, decode h = .operation i) ↔ LegalHeader h := by
  have hagrees := decode_agrees h
  cases hd : decode h with
  | operation i => rw [hd] at hagrees; exact iff_of_true ⟨i, rfl⟩ hagrees.2
  | reserved why => rw [hd] at hagrees; exact iff_of_false (by simp) hagrees

theorem exists_decode_eq_reserved_iff (h : Header) : (∃ why, decode h = .reserved why) ↔ ¬ LegalHeader h := by
  rw [← exists_decode_eq_operation_iff]
  cases decode h <;> simp

theorem decode_isSome_iff (h : Header) : (decode h).instr?.isSome ↔ LegalHeader h := by
  rw [← exists_decode_eq_operation_iff]
  cases decode h <;> simp [Decoded.instr?]

end Sys2Proof

/-! # The number of headers that decode, and the inverse laws (`30_encoding.md` R80) -/

namespace Sys2Proof

/-! ### Counting the legal headers -/

/-- Counting over a range of `n` blocks of `m` numbers, block by block. -/
theorem countP_range_mul (p : Nat → Bool) (m n : Nat) :
    (List.range (m * n)).countP p = ((List.range n).map fun q => (List.range m).countP fun r => p (m * q + r)).sum := by
  induction n with
  | zero => rfl
  | succ n ih =>
    rw [Nat.mul_succ, List.range_add, List.countP_append, List.countP_map, ih, List.range_succ, List.map_append,
      List.sum_append]
    simp [Function.comp_def]

theorem countP_range_lt {c m : Nat} (h : c ≤ m) : (List.range m).countP (fun r => r < c) = c := by
  obtain ⟨d, rfl⟩ := Nat.exists_eq_add_of_le h
  rw [List.range_add, List.countP_append, List.countP_map, List.countP_eq_length.2, List.countP_eq_zero.2] <;> simp

/-- One operation code has as many headers that decode as it has legal auxiliary values. -/
theorem countP_decode_block {op : Nat} (hop : op < 16) :
    ((List.range 4096).countP fun r => (decode (BitVec.ofNat 16 (4096 * op + r))).instr?.isSome) = legalAuxCount op := by
  rw [← countP_range_lt (show legalAuxCount op ≤ 4096 from (legalAuxCount_le op).trans (by decide))]
  refine List.countP_congr fun r hr => ?_
  have hr := List.mem_range.1 hr
  have hword : (BitVec.ofNat 16 (4096 * op + r)).toNat = 4096 * op + r := Nat.mod_eq_of_lt (by omega)
  have hlow : (4096 * op + r) % 4096 = r := by omega
  have hhigh : (4096 * op + r) / 4096 = op := by omega
  rw [decode_isSome_iff, legalHeader_iff_toNat, hword, hlow, hhigh, decide_eq_true_iff]

/-- Of the 65536 headers 2059 decode to an operation: 8 with a carry-in, 2048 with a count and 3 with neither. -/
theorem countP_decode :
    ((List.range 65536).countP fun h => (decode (BitVec.ofNat 16 h)).instr?.isSome) = 2059 := by
  rw [show 65536 = 4096 * 16 from rfl, countP_range_mul,
    List.map_congr_left fun op hop => countP_decode_block (List.mem_range.1 hop)]
  decide

/-- Settles O2: `decode_encode` and `encode_eq_of_decode`, with the headers and their number by the fields. -/
theorem decodeEncodeInverse : Obligations.DecodeEncodeInverse := by
  have hcarry (c : Bit) : (c.setWidth 10).toNat = c.toNat := BitVec.toNat_setWidth_of_le (by decide)
  refine ⟨fun c => ?_, fun c => ?_, rfl, fun k => encode_toNat (.shlw k), fun k => encode_toNat (.shrw k), rfl, rfl,
    fun c => ?_, fun c => ?_, decode_encode, fun _ _ => encode_eq_of_decode, countP_decode⟩
  all_goals
    rw [encode_toNat, auxOf, hcarry]
    rfl

end Sys2Proof

/-! # The rows of the opcode map (`30_encoding.md` R73) -/

namespace Sys2Proof

/-- The `mask` that leaves open the `k` low bits of the auxiliary value. -/
def rowMask (k : Nat) : Header := headerOfFields 0xF 0x3 (BitVec.allOnes 10 <<< k)

/-- Masking off the `k` low bits of an auxiliary value leaves nothing exactly when it is below `2 ^ k`. -/
theorem and_allOnes_shiftLeft_eq_zero_iff (aux : Aux) (k : Nat) :
    aux &&& (BitVec.allOnes 10 <<< k) = 0 ↔ aux.toNat < 2 ^ k := by
  have hle : aux.toNat / 2 ^ k * 2 ^ k < 2 ^ 10 := (Nat.div_mul_le_self _ _).trans_lt aux.isLt
  rw [← BitVec.shiftLeft_ushiftRight, ← BitVec.toNat_inj, BitVec.toNat_shiftLeft, BitVec.toNat_ushiftRight,
    Nat.shiftRight_eq_div_pow, Nat.shiftLeft_eq, Nat.mod_eq_of_lt hle]
  show _ = 0 ↔ _
  simp

/-- A header under such a mask is an operation code alone when its auxiliary value has the open bits only. -/
theorem and_rowMask_eq_iff (h : Header) (op : BitVec 4) (k : Nat) :
    h &&& rowMask k = headerOfFields op 0 0 ↔ headerOp h = op ∧ headerRsv h = 0 ∧ (headerAux h).toNat < 2 ^ k := by
  have hand : h &&& rowMask k =
      headerOfFields (headerOp h) (headerRsv h) (headerAux h &&& (BitVec.allOnes 10 <<< k)) := by
    conv_lhs => rw [← headerOfFields_fields h]
    rw [rowMask, headerOfFields, headerOfFields, BitVec.and_append, BitVec.and_append]
    congr 2
    · exact BitVec.and_allOnes
    · exact BitVec.and_allOnes
  rw [hand, headerOfFields_inj, and_allOnes_shiftLeft_eq_zero_iff]

/-- The shape of the nine rows: `match` is an operation code alone, and `mask` leaves open as many auxiliary values as
are legal. -/
theorem opcodeRows_shape : ∀ row ∈ opcodeRows, ∃ k ∈ [0, 1, 10], row.mask = rowMask k ∧
    row.bits = headerOfFields (headerOp row.bits) 0 0 ∧ legalAuxCount (headerOp row.bits).toNat = 2 ^ k := by
  decide

/-- A row selects the legal headers with its operation code. -/
theorem selects_iff {row : OpcodeRow} (hrow : row ∈ opcodeRows) (h : Header) :
    row.selects h ↔ LegalHeader h ∧ headerOp row.bits = headerOp h := by
  obtain ⟨k, -, hmask, hbits, hcount⟩ := opcodeRows_shape row hrow
  rw [OpcodeRow.selects, beq_iff_eq, hmask, hbits, and_rowMask_eq_iff, headerOp_headerOfFields, ← hcount, LegalHeader]
  constructor
  · rintro ⟨hop, hrsv, haux⟩
    exact ⟨⟨hrsv, hop ▸ haux⟩, hop.symm⟩
  · rintro ⟨⟨hrsv, haux⟩, hop⟩
    exact ⟨hop.symm, hrsv, hop ▸ haux⟩

/-- An operation code names one row, that of its operation. -/
theorem opcodeRows_filter_opcode (i : Instr) :
    (opcodeRows.filter (headerOp ·.bits = opcode i)).map (·.mnemonic) = [i.mnemonic] := by
  cases i <;> rfl

/-- Settles O3: the rows that select a legal header are those with its operation code, and no row selects another. -/
theorem rowsSelectWhatDecodeReturns : Obligations.RowsSelectWhatDecodeReturns := by
  intro h
  cases hd : decode h with
  | operation i =>
    have hlegal : LegalHeader h := (exists_decode_eq_operation_iff h).1 ⟨i, hd⟩
    have hop : headerOp h = opcode i := by rw [← encode_eq_of_decode hd, encode, headerOp_headerOfFields]
    refine Eq.trans (congrArg (List.map _) ?_) (opcodeRows_filter_opcode i)
    refine List.filter_congr fun row hrow => ?_
    rw [Bool.eq_iff_iff, selects_iff hrow, decide_eq_true_iff, hop]
    exact and_iff_right hlegal
  | reserved why =>
    have hnot : ¬ LegalHeader h := (exists_decode_eq_reserved_iff h).1 ⟨why, hd⟩
    rw [List.map_eq_nil_iff, List.filter_eq_nil_iff]
    exact fun row hrow hsel => hnot ((selects_iff hrow h).1 hsel).1

end Sys2Proof

/-! # Refused requests and placed words (`60_exceptions.md` R205, `10_state.md` R35) -/

namespace Sys2Proof.Machine

/-- An idle block refuses a request whose header is reserved (R205). -/
theorem stepIdle_refuses {s : State} {r : Request} {rest : List Request} {why : Reserved} (ho : s.env.offers = r :: rest)
    (hd : decode r.hdr = .reserved why) : stepIdle s = .refused (.reservedHeader why) := by
  simp [stepIdle, ho, hd]

/-- Settles O5: the decoder's reserved headers are the rule's, and `stepIdle_refuses` for such a header. -/
theorem reservedHeadersAreRefused : Obligations.ReservedHeadersAreRefused := by
  have hreserved (h : Header) : (∃ why, decode h = .reserved why) ↔ reservedByRule h := by
    rw [exists_decode_eq_reserved_iff, reservedByRule_iff]
  refine ⟨hreserved, fun s r rest hrst hifs ho hr => ?_⟩
  obtain ⟨why, hd⟩ := (hreserved r.hdr).2 hr
  exact ⟨why, (step_idle hrst hifs).trans (stepIdle_refuses ho hd)⟩

theorem instr?_eq_some_iff {d : Decoded} {i : Instr} : d.instr? = some i ↔ d = .operation i := by
  cases d <;> simp [Decoded.instr?]

/-- A header that decodes is placed as accept latches it, over the operands as they were. -/
theorem placeHeader_of_operation {s : State} {h : Header} {i : Instr} (hd : decode h = .operation i) :
    s.placeHeader h =
      { s with ifs := .busy, opnd := latchRequest ⟨h, s.opnd.a, s.opnd.b⟩, env := { s.env with rst := false } } := by
  rw [State.placeHeader, hd]
  rfl

/-- Settles O8: the placed latches are those of an accepted request with the same operands. -/
theorem placedOperationRuns : Obligations.PlacedOperationRuns := by
  intro s nbits w i hw
  have hd : decode (headerOfTableWord nbits w) = .operation i := instr?_eq_some_iff.1 hw
  rw [State.withFetchWord, placeHeader_of_operation hd]
  exact ⟨step_busy rfl rfl (latchedOperation_latchRequest hd), rfl, rfl, rfl, rfl, rfl, rfl, rfl⟩

end Sys2Proof.Machine

/-! # The primitive operations: results and frames (`40_limb_primitives.md` sections 2 to 6) -/

namespace Sys2Proof.Machine

/-- The header of an operation with a carry-in: its row's `match` value plus the carry-in (`30_encoding.md` R71). -/
theorem encode_carryIn_toNat {i : Instr} {c : Bit} (h : auxOf i = c.setWidth 10) :
    (encode i).toNat = 4096 * (opcode i).toNat + c.toNat := by
  rw [encode_toNat, h, BitVec.toNat_setWidth_of_le (by decide)]

/-- The complete step writes `IFS` and the result latches alone. -/
theorem State.complete_sameButResults (s : State) (res : ResultLatches) : SameButResults s (s.complete res) :=
  ⟨rfl, rfl, rfl, rfl, rfl, rfl⟩

theorem bitOf_eq_one_iff (p : Prop) [Decidable p] : bitOf p = 1 ↔ p := by
  by_cases h : p <;> simp [bitOf, h]

/-! ### One limb -/

/-- The borrow out compares with the unbounded sum `b + bin` (R101). -/
theorem sbb_borrow_iff {w : Nat} (a b : BitVec w) (bin : Bit) :
    (sbb a b bin).2 = 1 ↔ a.toNat < b.toNat + bin.toNat := by
  rw [(sbb_eq a b bin).2, bitOf_eq_one_iff]

/-- Settles O15: `adc` on the two limbs 0, written to limb 0 of `Q` and to the carry flag. -/
theorem adclAddsLimbs : Obligations.AdclAddsLimbs := by
  intro s cin
  refine ⟨encode_carryIn_toNat rfl, _, rfl, rfl, rfl, ?sum, ?carry, ?_, ?_, ?_, rfl, ?_, ?_,
    s.complete_sameButResults _⟩
  case sum => simp [limb_setLimb0, adc_fst_toNat]
  case carry => simp [adc_snd_toNat]
  all_goals simp [limb_setLimb0]

/-- Settles O16: `sbb` on the two limbs 0, written to limb 0 of `Q` and to the carry flag. -/
theorem sbblSubtractsLimbs : Obligations.SbblSubtractsLimbs := by
  intro s bin
  refine ⟨encode_carryIn_toNat rfl, _, rfl, rfl, rfl, ?difference, ?borrow, ?_, ?_, ?_, rfl, ?_, ?_,
    s.complete_sameButResults _⟩
  case difference => simpa [limb_setLimb0] using sbb_law (limb s.opnd.a 0) (limb s.opnd.b 0) bin
  case borrow => simpa using sbb_borrow_iff (limb s.opnd.a 0) (limb s.opnd.b 0) bin
  all_goals simp [limb_setLimb0]

/-! ### Comparison and zero test -/

theorem compareWide_gt_iff (x y : Wide) : compareWide x y = .gt ↔ y.toNat < x.toNat := by
  rw [compareWide_eq, Nat.compare_eq_gt]

theorem compareWide_eq_iff (x y : Wide) : compareWide x y = .eq ↔ x = y := by
  rw [compareWide_eq, Nat.compare_eq_eq, BitVec.toNat_inj]

/-- Settles O17: the code of `compareWide`, whose three results are the three orders of the values. -/
theorem cmpwComparesValues : Obligations.CmpwComparesValues := by
  refine ⟨rfl, fun s => ⟨_, rfl, rfl, rfl, fun h => ?eq, fun h => ?lt, fun h => ?gt, rfl, rfl, ?_, ?_,
    s.complete_sameButResults _⟩⟩
  case eq => simp [(compareWide_eq_iff _ _).2 (BitVec.eq_of_toNat_eq h), cmpCode]
  case lt => simp [(compareWide_lt_iff _ _).2 h, cmpCode]
  case gt => simp [(compareWide_gt_iff _ _).2 h, cmpCode]
  all_goals simp

theorem isZero_iff_toNat (x : Wide) : isZero x = true ↔ x.toNat = 0 := by
  rw [isZero_iff, ← BitVec.toNat_inj, BitVec.ofNat_eq_ofNat, BitVec.toNat_zero]

/-- Settles O20: the flag is `isZero` of the operand, which holds of the value zero alone. -/
theorem iszwTestsForZero : Obligations.IszwTestsForZero := by
  refine ⟨rfl, fun s => ⟨_, rfl, rfl, rfl, fun h => ?zero, fun h => ?nonzero, rfl, rfl, ?_, ?_,
    s.complete_sameButResults _⟩⟩
  case zero => simp [(isZero_iff_toNat _).2 h]
  case nonzero => simp [Bool.eq_false_iff.2 (mt (isZero_iff_toNat _).1 h)]
  all_goals simp

/-! ### Shifts -/

theorem shiftLeft_of_le (x : Wide) {k : Nat} (h : 512 ≤ k) : shiftLeft x k = 0 := if_pos h

theorem shiftRight_of_le (x : Wide) {k : Nat} (h : 512 ≤ k) : shiftRight x k = 0 := if_pos h

/-- Settles O18: `shiftLeft` by the count, written to `Q`. -/
theorem shlwShiftsLeft : Obligations.ShlwShiftsLeft := fun s bits =>
  ⟨encode_toNat (.shlw bits), _, rfl, rfl, rfl, shiftLeft_of_le s.opnd.a, fun _ => shiftLeft_toNat s.opnd.a bits.toNat,
    rfl, rfl, s.complete_sameButResults _⟩

/-- Settles O19: `shiftRight` by the count, written to `Q`. -/
theorem shrwShiftsRight : Obligations.ShrwShiftsRight := fun s bits =>
  ⟨encode_toNat (.shrw bits), _, rfl, rfl, rfl, shiftRight_of_le s.opnd.a,
    fun _ => shiftRight_toNat s.opnd.a bits.toNat, rfl, rfl, s.complete_sameButResults _⟩

/-! ### Wide addition and subtraction -/

theorem addWide_fst_toNat (x y : Wide) (c : Bit) :
    (addWide x y c).1.toNat = (x.toNat + y.toNat + c.toNat) % 2 ^ 512 := by
  rw [(addWide_eq x y c).1, BitVec.toNat_ofNat]

theorem addWide_snd_toNat (x y : Wide) (c : Bit) :
    (addWide x y c).2.toNat = (x.toNat + y.toNat + c.toNat) / 2 ^ 512 := by
  rw [← addWide_law, Nat.add_mul_div_right _ _ (by positivity), Nat.div_eq_of_lt (addWide x y c).1.isLt, Nat.zero_add]

theorem subWide_borrow_iff (x y : Wide) (bin : Bit) :
    (subWide x y bin).2 = 1 ↔ x.toNat < y.toNat + bin.toNat := by
  rw [(subWide_eq x y bin).2, bitOf_eq_one_iff]

/-- Settles O21: `addWide` of the operands, written to `Q` and to the carry flag. -/
theorem addwAddsWideValues : Obligations.AddwAddsWideValues := by
  intro s cin
  refine ⟨encode_carryIn_toNat rfl, _, rfl, rfl, rfl, addWide_fst_toNat _ _ cin, ?carry, rfl, ?_, ?_,
    s.complete_sameButResults _⟩
  case carry => simp [addWide_snd_toNat, -Nat.reducePow]
  all_goals simp

/-- Settles O22: `subWide` of the operands, written to `Q` and to the carry flag. -/
theorem subwSubtractsWideValues : Obligations.SubwSubtractsWideValues := by
  intro s bin
  refine ⟨encode_carryIn_toNat rfl, _, rfl, rfl, rfl, ?difference, ?borrow, rfl, ?_, ?_, s.complete_sameButResults _⟩
  case difference => simpa using subWide_law s.opnd.a s.opnd.b bin
  case borrow => simpa using subWide_borrow_iff s.opnd.a s.opnd.b bin
  all_goals simp

end Sys2Proof.Machine

/-! # The shifts limb by limb (`40_limb_primitives.md` R109, R111) -/

namespace Sys2Proof.Machine

theorem limb_eq_zero (x : Wide) {i : Nat} (h : 4 ≤ i) : limb x i = 0 := by
  apply BitVec.eq_of_toNat_eq
  have hx : x.toNat < 2 ^ (128 * i) := x.isLt.trans_le (Nat.pow_le_pow_right (by decide) (by omega))
  rw [limb_toNat, Nat.div_eq_of_lt hx]
  rfl

/-- A window of `w` bits that starts `k` bits up in the low one of two windows of `w` bits: the high bits of the low
window, and above them the low bits of the high one. -/
theorem window_across (y : Nat) {w k : Nat} (hk : k ≤ w) :
    y / 2 ^ k % 2 ^ w = y % 2 ^ w / 2 ^ k + y / 2 ^ w % 2 ^ w * 2 ^ (w - k) % 2 ^ w := by
  have hw : 2 ^ w = 2 ^ k * 2 ^ (w - k) := by rw [← Nat.pow_add]; congr 1; omega
  have hlow : y % 2 ^ w / 2 ^ k = y / 2 ^ k % 2 ^ (w - k) := by rw [hw, Nat.mod_mul_right_div_self]
  have hhigh (z : Nat) : z * 2 ^ (w - k) % 2 ^ w = 2 ^ (w - k) * (z % 2 ^ k) := by
    rw [hw, Nat.mul_comm z, Nat.mul_comm (2 ^ k), Nat.mul_mod_mul_left]
  have hmod := Nat.mod_mul (x := y / 2 ^ k) (a := 2 ^ (w - k)) (b := 2 ^ k)
  rw [Nat.div_div_eq_div_mul, Nat.mul_comm (2 ^ (w - k)) (2 ^ k), ← hw] at hmod
  rw [hlow, Nat.mod_mul_mod, hhigh, hmod]

/-- `window_across` in a wide value: 128 bits that start `k` bits up in limb `m`. -/
theorem window_across_limbs (x : Wide) (m : Nat) {k : Nat} (hk : k ≤ 128) :
    x.toNat / 2 ^ (128 * m + k) % 2 ^ 128 =
      (limb x m).toNat / 2 ^ k + (limb x (m + 1)).toNat * 2 ^ (128 - k) % 2 ^ 128 := by
  rw [limb_toNat, limb_toNat, Nat.mul_add_one, Nat.pow_add 2 (128 * m), Nat.pow_add 2 (128 * m),
    ← Nat.div_div_eq_div_mul, ← Nat.div_div_eq_div_mul, window_across _ hk]

/-- A limb of a right shift, before the split of the count. -/
theorem limb_shiftRight_toNat (x : Wide) (bits i : Nat) :
    (limb (shiftRight x bits) i).toNat = x.toNat / 2 ^ (128 * i + bits) % 2 ^ 128 := by
  rw [limb_toNat, shiftRight_toNat, Nat.div_div_eq_div_mul, ← Nat.pow_add, Nat.add_comm]

/-- A limb of a left shift, before the split of the count: the bits that leave at the top lie above it. -/
theorem limb_shiftLeft_toNat (x : Wide) (bits : Nat) {i : Nat} (hi : i < 4) :
    (limb (shiftLeft x bits) i).toNat = x.toNat * 2 ^ bits / 2 ^ (128 * i) % 2 ^ 128 := by
  have hsplit : 2 ^ 512 = 2 ^ (128 * i) * 2 ^ (512 - 128 * i) := by rw [← Nat.pow_add]; congr 1; omega
  rw [limb_toNat, shiftLeft_toNat, hsplit, Nat.mod_mul_right_div_self,
    Nat.mod_mod_of_dvd _ (Nat.pow_dvd_pow 2 (by omega))]

/-- R111's limb formula, with limbs above 3 zero by themselves. -/
theorem limb_shiftRight (x : Wide) (bits i : Nat) : (limb (shiftRight x bits) i).toNat =
    (limb x (i + bits / 128)).toNat / 2 ^ (bits % 128) +
      (limb x (i + bits / 128 + 1)).toNat * 2 ^ (128 - bits % 128) % 2 ^ 128 := by
  have hplace : 128 * i + bits = 128 * (i + bits / 128) + bits % 128 := by omega
  rw [limb_shiftRight_toNat, hplace, window_across_limbs x _ (by omega)]

/-- R109 below the limbs that receive bits. -/
theorem limb_shiftLeft_of_lt (x : Wide) {bits i : Nat} (hi : i < 4) (h : i < bits / 128) :
    (limb (shiftLeft x bits) i).toNat = 0 := by
  have hplace : 2 ^ bits = 2 ^ (bits - 128 * i - 128) * 2 ^ 128 * 2 ^ (128 * i) := by
    rw [← Nat.pow_add, ← Nat.pow_add]; congr 1; omega
  rw [limb_shiftLeft_toNat x bits hi, hplace, ← Nat.mul_assoc, Nat.mul_div_cancel _ (by positivity), ← Nat.mul_assoc,
    Nat.mul_mod_left]

/-- R109 at the lowest limb that receives bits. -/
theorem limb_shiftLeft_lowest (x : Wide) {bits i : Nat} (hi : i < 4) (h : i = bits / 128) :
    (limb (shiftLeft x bits) i).toNat = (limb x 0).toNat * 2 ^ (bits % 128) % 2 ^ 128 := by
  have hplace : 2 ^ bits = 2 ^ (bits % 128) * 2 ^ (128 * i) := by rw [← Nat.pow_add]; congr 1; omega
  rw [limb_shiftLeft_toNat x bits hi, hplace, ← Nat.mul_assoc, Nat.mul_div_cancel _ (by positivity), limb_toNat,
    Nat.mod_mul_mod]
  simp

/-- R109 above the lowest limb that receives bits. -/
theorem limb_shiftLeft_above (x : Wide) {bits i m : Nat} (hi : i < 4) (h : i = bits / 128 + 1 + m) :
    (limb (shiftLeft x bits) i).toNat = (limb x (m + 1)).toNat * 2 ^ (bits % 128) % 2 ^ 128 +
      (limb x m).toNat / 2 ^ (128 - bits % 128) := by
  have hplace : 2 ^ (128 * i) = 2 ^ (128 * m + (128 - bits % 128)) * 2 ^ bits := by
    rw [← Nat.pow_add]; congr 1; omega
  rw [limb_shiftLeft_toNat x bits hi, hplace, Nat.mul_div_mul_right _ _ (by positivity),
    window_across_limbs x m (Nat.sub_le _ _), Nat.sub_sub_self (by omega), Nat.add_comm]

/-- A limb has nothing above its 128 bits. -/
theorem limb_div_eq_zero (x : Wide) (i : Nat) : (limb x i).toNat / 2 ^ 128 = 0 := Nat.div_eq_of_lt (limb x i).isLt

/-- Settles O23: the values are `shiftLeft_toNat` and `shiftRight_toNat`; the limb formulas split at the limbs that
receive bits, and what they leave out (a count of whole limbs, limbs above 3) is zero. -/
theorem shiftsByLimbs : Obligations.ShiftsByLimbs := by
  refine ⟨fun x bits h => ⟨shiftLeft_of_le x h, shiftRight_of_le x h⟩,
    fun x bits _ => ⟨shiftLeft_toNat x bits, shiftRight_toNat x bits⟩, fun x bits i _ hi => ⟨?left, ?right⟩⟩
  case left =>
    rcases lt_trichotomy i (bits / 128) with h | h | h
    · rw [limb_shiftLeft_of_lt x hi h, if_pos h, if_pos (by omega)]
    · rw [limb_shiftLeft_lowest x hi h, if_neg (by omega), if_pos (by omega), h, Nat.sub_self, Nat.add_zero]
    · obtain ⟨m, hm⟩ := Nat.exists_eq_add_of_le h
      have hhigh : i - bits / 128 = m + 1 := by omega
      rw [limb_shiftLeft_above x hi hm, if_neg (by omega), hhigh, Nat.add_sub_cancel]
      split
      · have hbs : bits % 128 = 0 := by omega
        rw [hbs, Nat.sub_zero, limb_div_eq_zero]
      · rfl
  case right =>
    rw [limb_shiftRight]
    congr 1
    · split
      · rw [limb_eq_zero x ‹_›]; simp
      · rfl
    · split
      · rename_i h
        rcases h with h | h
        · rw [h, Nat.sub_zero, Nat.mul_mod_left]
        · rw [limb_eq_zero x h]; simp
      · rfl

end Sys2Proof.Machine

/-! # The laws of the wide primitives (`40_limb_primitives.md` R119) -/

namespace Sys2Proof.Machine

theorem subWide_addWide (x y : Wide) (c : Bit) : (subWide (addWide x y c).1 y c).1 = x := by
  apply BitVec.eq_of_toNat_eq
  have hadd := addWide_law x y c
  have hsub := subWide_law (addWide x y c).1 y c
  omega

theorem addWide_comm (x y : Wide) (c : Bit) : addWide x y c = addWide y x c := by
  obtain ⟨hsum, hcarry⟩ := addWide_eq x y c
  obtain ⟨hsum', hcarry'⟩ := addWide_eq y x c
  refine Prod.ext ?_ ?_
  · rw [hsum, hsum', Nat.add_comm x.toNat]
  · rw [hcarry, hcarry', Nat.add_comm x.toNat]

theorem subWide_borrow_iff_less (x y : Wide) : (subWide x y 0).2 = 1 ↔ compareWide x y = .lt := by
  rw [subWide_borrow_iff, compareWide_lt_iff]
  rfl

theorem subWide_eq_zero_iff (x y : Wide) : (subWide x y 0).1 = 0 ↔ compareWide x y = .eq := by
  rw [(subWide_eq x y 0).1, compareWide_eq_iff, ← sub_eq_zero (a := x)]
  simp

theorem compareWide_swap (x y : Wide) : compareWide x y = .lt ↔ compareWide y x = .gt := by
  rw [compareWide_lt_iff, compareWide_gt_iff]

theorem shiftLeft_shiftLeft (x : Wide) (j k : Nat) : shiftLeft (shiftLeft x j) k = shiftLeft x (j + k) := by
  simp only [shiftLeft_eq, BitVec.shiftLeft_add]

theorem shiftRight_shiftRight (x : Wide) (j k : Nat) : shiftRight (shiftRight x j) k = shiftRight x (j + k) := by
  simp only [shiftRight_eq, BitVec.shiftRight_add]

/-- A left shift undone keeps the bits that were not shifted out. -/
theorem shiftRight_shiftLeft_toNat (x : Wide) {k : Nat} (hk : k ≤ 512) :
    (shiftRight (shiftLeft x k) k).toNat = x.toNat % 2 ^ (512 - k) := by
  have hsplit : 2 ^ 512 = 2 ^ (512 - k) * 2 ^ k := by rw [← Nat.pow_add]; congr 1; omega
  rw [shiftRight_toNat, shiftLeft_toNat, hsplit, Nat.mul_mod_mul_right, Nat.mul_div_cancel _ (by positivity)]

theorem shiftRight_shiftLeft_eq_iff (x : Wide) {k : Nat} (hk : k ≤ 512) :
    shiftRight (shiftLeft x k) k = x ↔ x.toNat < 2 ^ (512 - k) := by
  rw [← BitVec.toNat_inj, shiftRight_shiftLeft_toNat x hk, Nat.mod_eq_iff_lt (by positivity)]

theorem addWide_self_fst (x : Wide) : shiftLeft x 1 = (addWide x x 0).1 := by
  apply BitVec.eq_of_toNat_eq
  rw [shiftLeft_toNat, addWide_fst_toNat]
  simp [Nat.mul_two, -Nat.reducePow]

/-- The carry of a doubling is the top bit. -/
theorem addWide_self_snd (x : Wide) : (addWide x x 0).2 = x.extractLsb' 511 1 := by
  apply BitVec.eq_of_toNat_eq
  rw [addWide_snd_toNat, BitVec.extractLsb'_toNat, Nat.shiftRight_eq_div_pow]
  have hx := x.isLt
  have h0 : (0 : Bit).toNat = 0 := rfl
  omega

/-- Limb 0 of a sum is the first `adc` of the chain (R115). -/
theorem limb_addWide_zero (x y : Wide) (c : Bit) :
    limb (addWide x y c).1 0 = (adc (limb x 0) (limb y 0) c).1 := (limb_ofLimbs _ _ _ _).1

/-- Limb 1 of a sum is the second `adc` of the chain, with the first one's carry (R115). -/
theorem limb_addWide_one (x y : Wide) (c : Bit) :
    limb (addWide x y c).1 1 = (adc (limb x 1) (limb y 1) (adc (limb x 0) (limb y 0) c).2).1 :=
  (limb_ofLimbs _ _ _ _).2.1

theorem adc_zero_zero_toNat (c : Bit) : (adc (0 : Limb) 0 c).1.toNat = c.toNat := by
  have hc := c.isLt
  rw [adc_fst_toNat, show (0 : Limb).toNat = 0 from rfl, Nat.mod_eq_of_lt (by omega)]
  omega

/-- The limb adder is the wide adder on values of one limb. -/
theorem adc_eq_addWide (a b : Limb) (c : Bit) :
    (adc a b c).1 = limb (addWide (ofLimbs a 0 0 0) (ofLimbs b 0 0 0) c).1 0 ∧
      (adc a b c).2.toNat = (limb (addWide (ofLimbs a 0 0 0) (ofLimbs b 0 0 0) c).1 1).toNat := by
  obtain ⟨ha0, ha1, -, -⟩ := limb_ofLimbs a 0 0 0
  obtain ⟨hb0, hb1, -, -⟩ := limb_ofLimbs b 0 0 0
  constructor
  · rw [limb_addWide_zero, ha0, hb0]
  · rw [limb_addWide_one, ha0, hb0, ha1, hb1, adc_zero_zero_toNat]

/-- Settles O25: R119's items in order. -/
theorem widePrimitiveLaws : Obligations.WidePrimitiveLaws :=
  ⟨subWide_addWide, addWide_comm, fun x y => ⟨subWide_borrow_iff_less x y, subWide_eq_zero_iff x y⟩,
    fun x y => ⟨compareWide_swap x y, (compareWide_eq_iff x x).2 rfl⟩,
    fun x => (isZero_iff x).trans (compareWide_eq_iff x 0).symm,
    fun x j k => ⟨shiftLeft_shiftLeft x j k, shiftRight_shiftRight x j k⟩,
    fun x _ hk => shiftRight_shiftLeft_eq_iff x (Nat.le_succ_of_le hk),
    fun x => ⟨addWide_self_fst x, addWide_self_snd x⟩, adc_eq_addWide⟩

end Sys2Proof.Machine

/-! # The contract of `DIVREM` and its edge cases (`41_divide.md` R131, R132, R133, R137) -/

namespace Sys2Proof.Machine

/-! ### The result latches of a completed division -/

/-- The response is the error for the status `DIVISION_BY_ZERO` alone (R29). -/
theorem st_of_readResponse_divisionByZero {i : Instr} {l : ResultLatches}
    (h : readResponse i l = .ok .divisionByZero) : l.st = statusDivisionByZero := by
  unfold readResponse at h
  split at h
  · cases hp : readPayload i l <;> rw [hp] at h <;> cases h
  · split at h
    · assumption
    · cases h

/-- A quotient and a remainder are driven from the latches `Q` and `R`, with the status `OK` (R25, R29). -/
theorem latches_of_readResponse_divided {l : ResultLatches} {q r : Wide}
    (h : readResponse .divrem l = .ok (.ok (.divided q r))) : l.st = statusOk ∧ l.q = q ∧ l.r = r := by
  unfold readResponse at h
  split at h
  · cases h
    exact ⟨‹_›, rfl, rfl⟩
  · split at h <;> cases h

/-- Whenever `DIVREM` completes it leaves everything but `IFS`, the status, the quotient, the remainder and the hidden
registers alone. -/
theorem exec_divrem_frame {s t : State} (h : exec .divrem s = .next t) :
    t.ifs = .resp ∧ t.res.fl = s.res.fl ∧ SameButHidden s t := by
  obtain ⟨hifs, hfl, hengine, hbits, hopnd, henv⟩ := execDivrem_frame h
  exact ⟨hifs, hfl, hengine, hbits, hopnd, henv⟩

/-- R132 and R133 on the latches: `DIVREM` completes in every state, with the error for a zero divisor and with the
quotient and the remainder for any other. -/
theorem exec_divrem_results (s : State) :
    ∃ t, exec .divrem s = .next t ∧ (s.opnd.b = 0 → t.res.st = statusDivisionByZero) ∧
      (s.opnd.b ≠ 0 → t.res.st = statusOk ∧ t.res.q = s.opnd.a / s.opnd.b ∧ t.res.r = s.opnd.a % s.opnd.b) := by
  obtain ⟨t, ht, hread⟩ := exec_answers .divrem s
  rw [answer] at hread
  refine ⟨t, ht, fun hb => ?_, fun hb => ?_⟩
  · rw [if_pos hb] at hread
    exact st_of_readResponse_divisionByZero hread
  · rw [if_neg hb] at hread
    exact latches_of_readResponse_divided hread

/-- Settles O31: the latches hold the Euclidean quotient and remainder, which meet the identity and the bound. -/
theorem divremMeetsTheContract : Obligations.DivremMeetsTheContract := by
  intro s hb
  obtain ⟨t, ht, -, hnonzero⟩ := exec_divrem_results s
  obtain ⟨hifs, hfl, hframe⟩ := exec_divrem_frame ht
  obtain ⟨hst, hq, hr⟩ := hnonzero hb
  refine ⟨t, ht, hifs, hst, ?identity, ?bound, hfl, hframe⟩
  case identity => rw [hq, hr, BitVec.toNat_udiv, BitVec.toNat_umod, Nat.div_add_mod']
  case bound =>
    rw [hr]
    exact BitVec.umod_lt s.opnd.a ((BitVec.pos_iff_ne_zero s.opnd.b).2 hb)

/-! ### The edge cases -/

/-- The division of a smaller dividend (R137 item 4). -/
theorem div_mod_of_lt {a b : Wide} (h : a.toNat < b.toNat) : a / b = 0 ∧ a % b = a :=
  ⟨BitVec.udiv_eq_zero_iff_eq_zero_or_lt.2 (.inr h), BitVec.umod_eq_of_lt h⟩

theorem ne_zero_of_toNat_lt {a b : Wide} (h : a.toNat < b.toNat) : b ≠ 0 := by
  rintro rfl
  simp at h

theorem ne_zero_of_largest {b : Wide} (hb : b.toNat = 2 ^ 512 - 1) : b ≠ 0 := by
  rintro rfl
  rw [BitVec.ofNat_eq_ofNat, BitVec.toNat_zero] at hb
  omega

/-- The largest divisor is above every other dividend (R137 item 8). -/
theorem lt_of_ne_largest {a b : Wide} (hb : b.toNat = 2 ^ 512 - 1) (h : a ≠ b) : a.toNat < b.toNat := by
  have ha := a.isLt
  have hne : a.toNat ≠ b.toNat := fun heq => h (BitVec.eq_of_toNat_eq heq)
  omega

/-- Settles O32: the latches hold `A / B` and `A % B` for a nonzero divisor, and each case is a law of these. -/
theorem divremEdgeCases : Obligations.DivremEdgeCases := by
  intro s
  obtain ⟨t, ht, hzero, hnonzero⟩ := exec_divrem_results s
  have hself : s.opnd.a = s.opnd.b → s.opnd.b ≠ 0 → t.res.st = 0b00 ∧ t.res.q = 1 ∧ t.res.r = 0 := by
    intro hab hb
    obtain ⟨hst, hq, hr⟩ := hnonzero hb
    exact ⟨hst, by simpa [hq, hab] using hb, by simp [hr, hab]⟩
  have hsmaller : s.opnd.a.toNat < s.opnd.b.toNat → t.res.st = 0b00 ∧ t.res.q = 0 ∧ t.res.r = s.opnd.a := by
    intro hlt
    obtain ⟨hst, hq, hr⟩ := hnonzero (ne_zero_of_toNat_lt hlt)
    obtain ⟨hdiv, hmod⟩ := div_mod_of_lt hlt
    exact ⟨hst, hq.trans hdiv, hr.trans hmod⟩
  refine ⟨t, ht, fun ha hb => ?zeroDividend, hself, fun hb => ?one, hsmaller, hzero, fun hb => ?largest⟩
  case zeroDividend =>
    obtain ⟨hst, hq, hr⟩ := hnonzero hb
    exact ⟨hst, by simp [hq, ha], by simp [hr, ha]⟩
  case one =>
    obtain ⟨hst, hq, hr⟩ := hnonzero (by simp [hb])
    exact ⟨hst, by simp [hq, hb], by simp [hr, hb]⟩
  case largest =>
    have hne := ne_zero_of_largest hb
    exact ⟨(hnonzero hne).1, fun hab => (hself hab hne).2, fun hab => (hsmaller (lt_of_ne_largest hb hab)).2⟩

end Sys2Proof.Machine

/-! # The reference algorithm (`41_divide.md` R134, R135, R136) -/

namespace Sys2Proof.Machine

/-- R135: after `n` iterations the remainder has at most `n` bits, so the shift of the next one loses none. -/
theorem longDivAfter_rem_lt (a : Wide) {b : Wide} (hb : b ≠ 0) {n : Nat} (hn : n ≤ 512) :
    (longDivAfter a b n).2.toNat < 2 ^ n := by
  rw [(longDivAfter_spec a b hb hn).1]
  exact (Nat.mod_le _ _).trans_lt (dividendPrefix_lt a hn)

/-- Settles O33: the invariant is `longDivAfter_spec`, and a remainder of at most 511 bits has bit 511 zero. -/
theorem longDivisionLoopInvariant : Obligations.LongDivisionLoopInvariant := by
  intro a b n hb hn
  obtain ⟨hrem, hquo⟩ := longDivAfter_spec a b hb hn
  refine ⟨hrem, hquo, fun hlt => ?_⟩
  rw [← BitVec.testBit_toNat]
  apply Nat.testBit_lt_two_pow
  calc (longDivAfter a b n).2.toNat < 2 ^ n := longDivAfter_rem_lt a hb hn
    _ ≤ 2 ^ 511 := Nat.pow_le_pow_right (by decide) (by omega)

/-- R134 step 4: after 512 iterations the registers hold the quotient and the remainder. -/
theorem longDivAfter_eq_div_mod (a : Wide) {b : Wide} (hb : b ≠ 0) : longDivAfter a b 512 = (a / b, a % b) := by
  obtain ⟨hrem, hquo⟩ := longDivAfter_spec a b hb (Nat.le_refl 512)
  obtain ⟨hq, hr⟩ := eq_div_mod_of_toNat (by simpa using hquo) (by simpa using hrem)
  exact Prod.ext hq hr

/-- R136: the fast path answers what the loop would. -/
theorem divideRef_eq_longDivAfter (a : Wide) {b : Wide} (hb : b ≠ 0) : divideRef a b = longDivAfter a b 512 := by
  unfold divideRef
  split
  · rename_i hlt
    obtain ⟨hdiv, hmod⟩ := div_mod_of_lt ((compareWide_lt_iff a b).1 hlt)
    rw [longDivAfter_eq_div_mod a hb, hdiv, hmod]
  · rfl

/-- Settles O34: with and without its fast path the algorithm returns the quotient and the remainder. -/
theorem fastPathIsOptional : Obligations.FastPathIsOptional := by
  intro a b hb
  have heq := divideRef_eq_longDivAfter a hb
  refine ⟨heq, ?_, ?_⟩
  · rw [heq, longDivAfter_eq_div_mod a hb, BitVec.toNat_udiv]
  · rw [heq, longDivAfter_eq_div_mod a hb, BitVec.toNat_umod]

end Sys2Proof.Machine

/-! # The response is a function of the request (`41_divide.md` R141, `10_state.md` R33) -/

namespace Sys2Proof.Machine

/-- Settles O46: either block answers what `answer` gives the operation and the operands. -/
theorem responseDependsOnTheRequestAlone : Obligations.ResponseDependsOnTheRequestAlone := by
  intro i s s' ha hb
  obtain ⟨t, ht, hread⟩ := exec_answers i s
  obtain ⟨t', ht', hread'⟩ := exec_answers i s'
  rw [ha, hb] at hread'
  exact ⟨t, t', ht, ht', hread.trans hread'.symm, _, hread⟩

end Sys2Proof.Machine

/-! # `DIVREM` by either engine (`42_knuth_d_engine.md` R153, R170, R176) -/

namespace Sys2Proof.Machine

section
variable {wd nd : Nat}

/-- A division that `K0` decides ends there: no other phase runs (R153). -/
theorem runDivrem_of_phaseK0_ends {s : State} {k : KnuthRegs wd nd} (file : KnuthRegs wd nd → KnuthFile)
    (h : (phaseK0 s.engine (s.frame k)).seq.ph = .k9) :
    runDivrem s k file = .next (s.ofFrame (phaseK0 s.engine (s.frame k)) file) := by
  have hrun : runPhases s.engine maxPhaseSteps (s.frame k) = .ok (phaseK0 s.engine (s.frame k)) := by
    rw [maxPhaseSteps, runPhases_succ _ _ (by simp) (show phaseStep s.engine (s.frame k) = .ok _ from rfl)]
    exact runPhases_k9 _ _ h
  rw [runDivrem, hrun]

/-- The fast path of `K0` (R153). -/
theorem phaseK0_of_lt (e : Config.Engine) {f : Frame wd nd} (h : f.a.toNat < f.b.toNat) :
    phaseK0 e f = { f with res := ((f.res.writeQ 0).writeR f.a).ok }.goto .k9 := by
  rcases phaseK0_cases e f with ⟨hb, -⟩ | ⟨-, -, heq⟩ | ⟨-, hle, -⟩
  · exact absurd hb (ne_zero_of_toNat_lt h)
  · exact heq
  · omega

/-- A dividend below the divisor ends in `K0`, which writes the result latches alone. -/
theorem runDivrem_of_lt {s : State} (k : KnuthRegs wd nd) (file : KnuthRegs wd nd → KnuthFile)
    (h : s.opnd.a.toNat < s.opnd.b.toNat) :
    ∃ t, runDivrem s k file = .next t ∧ t.res = ((s.res.writeQ 0).writeR s.opnd.a).ok ∧ t.long = s.long ∧
      t.knuth = file k := by
  have heq := phaseK0_of_lt s.engine (f := s.frame k) h
  refine ⟨_, runDivrem_of_phaseK0_ends file (by rw [heq]; rfl), ?_⟩
  rw [heq]
  exact ⟨rfl, rfl, rfl⟩

/-- The long division does not use `J` (R176). -/
theorem runDivrem_longDiv_j {s t : State} {k : KnuthRegs wd nd} {file : KnuthRegs wd nd → KnuthFile}
    (he : s.engine = .longDiv) (h : runDivrem s k file = .next t) : t.seq.j = s.seq.j := by
  obtain ⟨f, hrun, rfl⟩ := runDivrem_next h
  rw [he] at hrun
  exact (runPhases_longDiv rfl hrun).2

end

theorem execDivrem_of_lt {s : State} (h : s.opnd.a.toNat < s.opnd.b.toNat) :
    ∃ t, execDivrem s = .next t ∧ t.res = ((s.res.writeQ 0).writeR s.opnd.a).ok ∧ t.long = s.long ∧
      t.knuth = s.knuth := by
  cases hk : s.knuth with
  | digits128 k => simp only [execDivrem, hk]; exact runDivrem_of_lt k .digits128 h
  | digits64 k => simp only [execDivrem, hk]; exact runDivrem_of_lt k .digits64 h

theorem execDivrem_longDiv_j {s t : State} (he : s.engine = .longDiv) (h : execDivrem s = .next t) :
    t.seq.j = s.seq.j := by
  cases hk : s.knuth with
  | digits128 k => simp only [execDivrem, hk] at h; exact runDivrem_longDiv_j he h
  | digits64 k => simp only [execDivrem, hk] at h; exact runDivrem_longDiv_j he h

/-- Settles O28: the fast path of `K0` writes `(0, A)` and ends the run. -/
theorem smallerDividendIsTheRemainder : Obligations.SmallerDividendIsTheRemainder := by
  intro s _ hlt
  obtain ⟨t, ht, hres, hlong, hknuth⟩ := execDivrem_of_lt hlt
  obtain ⟨hifs, hfl, hframe⟩ := exec_divrem_frame ht
  exact ⟨t, ht, hifs, by rw [hres]; rfl, by rw [hres]; rfl, by rw [hres]; rfl, hfl, hlong, hknuth, hframe⟩

/-- `exec_divrem_results` in unbounded integers, for a nonzero divisor (R132). -/
theorem exec_divrem_quotient_remainder {s t : State} (ht : exec .divrem s = .next t) (hb : s.opnd.b ≠ 0) :
    t.res.st = statusOk ∧ t.res.q.toNat = s.opnd.a.toNat / s.opnd.b.toNat ∧
      t.res.r.toNat = s.opnd.a.toNat % s.opnd.b.toNat := by
  obtain ⟨t', ht', -, hnonzero⟩ := exec_divrem_results s
  obtain rfl : t = t' := by simpa [ht] using ht'
  obtain ⟨hst, hq, hr⟩ := hnonzero hb
  exact ⟨hst, by rw [hq, BitVec.toNat_udiv], by rw [hr, BitVec.toNat_umod]⟩

/-- Settles O29: the completed division holds the quotient and the remainder, and the long division writes neither the
Algorithm D registers nor `J`. -/
theorem longDivisionDivides : Obligations.LongDivisionDivides := by
  intro s he hb
  obtain ⟨t, ht, -⟩ := exec_divrem_results s
  obtain ⟨hifs, hfl, hframe⟩ := exec_divrem_frame ht
  obtain ⟨hst, hq, hr⟩ := exec_divrem_quotient_remainder ht hb
  exact ⟨t, ht, hifs, hst, hq, hr, hfl, (execDivrem_engines ht).1 he, execDivrem_longDiv_j he ht, hframe⟩

/-- Settles O30: the phases end with the answer at both widths, and Algorithm D writes neither `REM` nor `QUO`. -/
theorem knuthEngineDivides : Obligations.KnuthEngineDivides := by
  intro s he
  obtain ⟨t, ht, hzero, -⟩ := exec_divrem_results s
  obtain ⟨hifs, hfl, hframe⟩ := exec_divrem_frame ht
  exact ⟨t, ht, hifs, hfl, (execDivrem_engines ht).2 he, hframe, exec_divrem_quotient_remainder ht, hzero⟩

end Sys2Proof.Machine

/-! # The trial digit, in the words of its rules (`42_knuth_d_engine.md` R157, R159, R167, R168) -/

namespace Sys2Proof.Machine

/-- U6: outside its precondition the divider has no result. -/
theorem div2by1?_eq_none {wd : Nat} {hi lo d : BitVec wd} (h : ¬ (2 ^ wd ≤ 2 * d.toNat ∧ hi.toNat ≤ d.toNat)) :
    div2by1? hi lo d = none := if_neg h

/-- U6: `D3A` stops where the divider has no result. -/
theorem phaseD3A_eq_error {wd nd : Nat} {f : Frame wd nd} (h : f.trialDivision = none) :
    phaseD3A f = .error .div2by1Precondition := by
  rw [Frame.trialDivision] at h
  simp only [phaseD3A, h]

/-- Settles O35: `div2by1?_eq_some` inside the precondition, `div2by1?_eq_none` outside it. -/
theorem twoDigitDividerIsExact : Obligations.TwoDigitDividerIsExact :=
  ⟨fun _ hi lo d => ⟨div2by1?_eq_some hi lo d, div2by1?_eq_none⟩, fun _ _ _ h => phaseD3A_eq_error (div2by1?_eq_none h)⟩

/-- R168 (b): `k` additions of the divisor's top digit bring the trial remainder to `base`, so the correction loop makes
at most `k` passes. -/
theorem correctTrial_lowers_le {base v1 : Nat} (v2 u2 q : Nat) {r k : Nat} (hk : 1 ≤ k) (h : base ≤ r + k * v1) :
    (correctTrial base v1 v2 u2 q r).1 ≤ q ∧ q ≤ (correctTrial base v1 v2 u2 q r).1 + k ∧
      (correctTrial base v1 v2 u2 q r).2 = r + (q - (correctTrial base v1 v2 u2 q r).1) * v1 := by
  induction q generalizing r k with
  | zero => simp [correctTrial]
  | succ q ih =>
    rw [correctTrial]
    split
    · split
      · -- a pass after which the loop goes on: more than one addition was left
        rename_i hgo
        obtain ⟨m, rfl⟩ : ∃ m, k = m + 1 := ⟨k - 1, by omega⟩
        rw [Nat.add_mul, Nat.one_mul] at h
        have hm : 1 ≤ m := Nat.pos_of_ne_zero (by rintro rfl; omega)
        obtain ⟨hle, hge, hr⟩ := ih (r := r + v1) hm (by omega)
        refine ⟨by omega, by omega, ?_⟩
        rw [hr, Nat.succ_sub hle, Nat.succ_mul]
        omega
      · exact ⟨Nat.le_succ q, Nat.add_le_add_left hk q, by simp⟩
    · simp

/-- Settles O36: two additions of a normalized digit reach `base`. -/
theorem correctionRunsAtMostTwice : Obligations.CorrectionRunsAtMostTwice := fun _ _ v2 u2 q _ hnorm =>
  correctTrial_lowers_le v2 u2 q (by decide) (Nat.le_add_left_of_le hnorm)

/-- Settles O37: the bounds of `trialDigit_spec`, divided by the divisor. -/
theorem trialDigitIsAtMostOneTooLarge : Obligations.TrialDigitIsAtMostOneTooLarge := by
  intro wd n us vs hn hus hvs hnorm hlt
  obtain ⟨q, r, hdiv, hdigit, hgt, hle, hone⟩ := trialDigit_spec hn hus hvs hnorm hlt
  have hpos : 0 < digitsVal vs := Nat.zero_lt_of_lt hlt
  have hge : digitsVal us / digitsVal vs ≤ correctedDigit us vs n q.toNat r.toNat :=
    Nat.lt_succ_iff.1 ((Nat.div_lt_iff_lt_mul hpos).2 hgt)
  refine ⟨q, r, hdiv, hdigit, hge, ?_, fun h1 => ?_⟩
  · rw [← Nat.add_div_right _ hpos]
    exact (Nat.le_div_iff_mul_le hpos).2 hle
  · exact Nat.le_antisymm ((Nat.le_div_iff_mul_le hpos).2 (hone h1)) hge

end Sys2Proof.Machine

/-! # The phases `K1` and `D1` (`42_knuth_d_engine.md` R154, R155) -/

namespace Sys2Proof.Machine

/-- Settles O38: the divisor's significant digits, and the zeros above them. -/
theorem k1CountsSignificantDigits : Obligations.K1CountsSignificantDigits := by
  intro wd nd f hwd hb
  obtain ⟨hpos, hle, htop, -⟩ := significantDigits_divisor hwd hb
  exact ⟨hpos, hle, htop, (significantDigits_spec (digitsOf wd nd f.b)).2.1⟩

section
variable {wd nd : Nat} {f : Frame wd nd}

/-- The digits of a value below `B^n` are zero from digit `n` up. -/
theorem digit_eq_zero_of_lt {ds : List (BitVec wd)} {n i : Nat} (h : digitsVal ds < 2 ^ (wd * n)) (hi : n ≤ i) :
    digit ds i = 0 := by
  apply BitVec.eq_of_toNat_eq
  rw [digit_toNat, Nat.div_eq_of_lt (h.trans_le (Nat.pow_le_pow_right Nat.two_pos (Nat.mul_le_mul_left wd hi)))]
  simp

/-- What `D1` does (R155): it writes the registers of `phaseD1_eq`, and the facts it starts the loop from hold. -/
theorem phaseD1_spec (hwd : wd * nd = 512) (hb : f.b ≠ 0) (hn : f.k.nsig = significantDigits (digitsOf wd nd f.b)) :
    ∃ f', phaseD1 f = .ok f' ∧ f'.seq.ph = .d2 ∧
      clz? (digit (digitsOf wd nd f.b) (f.k.nsig - 1)) = some f'.k.s ∧ f'.k.nsig = f.k.nsig ∧
      f'.a = f.a ∧ f'.b = f.b ∧ f'.k.v = digitsOf wd nd (shiftLeft f'.b f'.k.s) ∧
      f'.k.qa = List.replicate nd 0 ∧ f'.Normalized ∧ digitsVal f'.k.u = f'.dividend := by
  obtain ⟨f', hs, hp, hholds⟩ := phaseD1_holds hwd hb hn
  rw [Frame.Holds, hp] at hholds
  obtain ⟨hnorm, -, hu, -⟩ := hholds
  obtain ⟨-, -, htop, -⟩ := significantDigits_divisor hwd hb
  obtain ⟨s, hclz, -⟩ := clz?_spec _ (hn ▸ htop)
  obtain rfl := Except.ok.inj ((phaseD1_eq hclz).symm.trans hs)
  exact ⟨_, hs, rfl, hclz, rfl, rfl, rfl, rfl, rfl, hnorm, hu⟩

/-- The shifted dividend has less than `2^S` above its `ND` digits (R155). -/
theorem dividend_top_digit_lt (hwd : wd * nd = 512) (hu : digitsVal f.k.u = f.dividend) :
    (digit f.k.u nd).toNat < 2 ^ f.k.s := by
  have ha : f.a.toNat < 2 ^ (wd * nd) := by rw [hwd]; exact f.a.isLt
  rw [digit_toNat, hu]
  exact (Nat.mod_le _ _).trans_lt (Nat.div_lt_of_lt_mul (Nat.mul_lt_mul_of_pos_right ha (Nat.two_pow_pos _)))

/-- A normalized divisor loses no bit in the 512-bit shift (R155). -/
theorem Frame.Normalized.v_val_of_shift (h : f.Normalized) (hwd : wd * nd = 512)
    (hv : f.k.v = digitsOf wd nd (shiftLeft f.b f.k.s)) : digitsVal f.k.v = f.divisor := by
  have hfit : f.divisor < 2 ^ (wd * nd) :=
    h.divisor_lt.trans_le (Nat.pow_le_pow_right Nat.two_pos (Nat.mul_le_mul_left wd h.nsig_le))
  rw [hwd] at hfit
  rw [hv]
  exact digitsVal_shiftLeft hwd hfit

end

/-- Settles O39: the facts of `phaseD1_spec`; the common factor `2^S` leaves the quotient and shifts the remainder. -/
theorem d1Normalizes : Obligations.D1Normalizes := by
  intro wd nd f hwd hb hn
  obtain ⟨f', hs, hp, hclz, hnsig, hfa, hfb, hv, hqa, hnorm, hu⟩ := phaseD1_spec hwd hb hn
  have hvval := hnorm.v_val_of_shift hwd hv
  have hzero : ∀ i, f.k.nsig ≤ i → digit f'.k.v i = 0 := fun i hi =>
    digit_eq_zero_of_lt (by rw [hvval]; exact hnorm.divisor_lt) (hnsig ▸ hi)
  refine ⟨f', hs, hp, hclz, clz?_lt hclz, hnsig, hnorm.u_length, hnorm.v_length, hqa, ?_, hnsig ▸ hnorm.v_top, hzero,
    ?_, dividend_top_digit_lt hwd hu, ?_, ?_⟩
  · rw [hvval, Frame.divisor, hfb]
  · rw [hu, Frame.dividend, hfa]
  · rw [hu, hvval, Frame.dividend, Frame.divisor, hfa, hfb, Nat.mul_div_mul_right _ _ (Nat.two_pow_pos _)]
  · rw [hu, hvval, Frame.dividend, Frame.divisor, hfa, hfb, Nat.mul_mod_mul_right]

end Sys2Proof.Machine

/-! # The phases `D4` and `D6` on the window at position `J` (`42_knuth_d_engine.md` R160, R161, R163) -/

namespace Sys2Proof.Machine

variable {wd nd : Nat}

/-! ### Replacing a window of digits -/

section
variable {us ws : List (BitVec wd)} {j m : Nat}

/-- The new digits stand where the window was. -/
theorem window_of_replaced (hj : j ≤ us.length) (hws : ws.length = m) :
    ((us.take j ++ (ws ++ (us.drop j).drop m)).drop j).take m = ws := by
  rw [List.drop_left' (List.length_take_of_le hj), List.take_left' hws]

/-- The digits outside the window are as they were. -/
theorem digit_of_replaced (hj : j ≤ us.length) (hws : ws.length = m) {i : Nat} (hi : i < j ∨ j + m ≤ i) :
    digit (us.take j ++ (ws ++ (us.drop j).drop m)) i = digit us i := by
  have hlen := List.length_take_of_le hj
  simp only [digit, List.getD_eq_getElem?_getD]
  rcases hi with hlt | hge
  · rw [List.getElem?_append_left (by omega), List.getElem?_take_of_lt hlt]
  · rw [List.getElem?_append_right (by omega), List.getElem?_append_right (by omega), List.getElem?_drop,
      List.getElem?_drop, hlen, hws]
    congr 2
    omega

theorem length_of_replaced (hj : j + m ≤ us.length) (hws : ws.length = m) :
    (us.take j ++ (ws ++ (us.drop j).drop m)).length = us.length := by
  simp [hws]
  omega

end

section
variable {f : Frame wd nd}

/-- A window inside `U` has one digit more than the divisor. -/
theorem window_length_eq (hu : f.k.u.length = nd + 1) (hv : f.k.v.length = nd) (hj : f.seq.j + f.k.nsig ≤ nd) :
    f.window.length = f.k.nsig + 1 ∧ (f.k.v.take f.k.nsig).length = f.k.nsig := by
  simp [Frame.window, hu, hv]
  omega

/-- `D4` on the window (R160, R161): the difference with the product, plus `B^(n+1)` when it is negative, and `BW`. -/
theorem phaseD4_window_val (hu : f.k.u.length = nd + 1) (hv : f.k.v.length = nd) (hj : f.seq.j + f.k.nsig ≤ nd)
    (hq : f.k.qhat.toNat < 2 ^ wd) :
    digitsVal (phaseD4 f).window + f.k.qhat.toNat * digitsVal (f.k.v.take f.k.nsig) =
      digitsVal f.window + (phaseD4 f).k.bw.toNat * 2 ^ (wd * (f.k.nsig + 1)) := by
  obtain ⟨hwlen, hvlen⟩ := window_length_eq hu hv hj
  have hlen : f.window.length = (f.k.v.take f.k.nsig).length + 1 := by rw [hwlen, hvlen]
  obtain ⟨hu', hbw⟩ := phaseD4_window hlen
  have hlaw := mulSub_law (f.k.qhat.setWidth wd) f.window (f.k.v.take f.k.nsig) 0 0 hlen
  have hwin : (phaseD4 f).window = (mulSub (f.k.qhat.setWidth wd) f.window (f.k.v.take f.k.nsig) 0 0).1 := by
    show (((phaseD4 f).k.u.drop f.seq.j).take (f.k.nsig + 1)) = _
    rw [hu']
    exact window_of_replaced (by omega) (by rw [mulSub_length, hwlen])
  rw [← hwin, ← hbw, hwlen, BitVec.toNat_setWidth, Nat.mod_eq_of_lt hq] at hlaw
  simpa using hlaw

/-- `D4` keeps the length of `U` and its digits outside the window (R160). -/
theorem phaseD4_outside (hu : f.k.u.length = nd + 1) (hv : f.k.v.length = nd) (hj : f.seq.j + f.k.nsig ≤ nd) :
    (phaseD4 f).k.u.length = nd + 1 ∧
      ∀ i, i < f.seq.j ∨ f.seq.j + f.k.nsig < i → digit (phaseD4 f).k.u i = digit f.k.u i := by
  obtain ⟨hwlen, hvlen⟩ := window_length_eq hu hv hj
  obtain ⟨hu', -⟩ := phaseD4_window (f := f) (by rw [hwlen, hvlen])
  rw [hu', Frame.above]
  exact ⟨(length_of_replaced (by omega) (by rw [mulSub_length, hwlen])).trans hu,
    fun i hi => digit_of_replaced (by omega) (by rw [mulSub_length, hwlen]) hi⟩

/-- `D6` on the window (R163): the sum with the divisor, less `B^(n+1)` when it carries out. -/
theorem phaseD6_window_val (hu : f.k.u.length = nd + 1) (hv : f.k.v.length = nd) (hj : f.seq.j + f.k.nsig ≤ nd) :
    ∃ carry ≤ 1, digitsVal (phaseD6 f).window + carry * 2 ^ (wd * (f.k.nsig + 1)) =
      digitsVal f.window + digitsVal (f.k.v.take f.k.nsig) := by
  obtain ⟨hwlen, hvlen⟩ := window_length_eq hu hv hj
  have hlen : f.window.length = (f.k.v.take f.k.nsig).length + 1 := by rw [hwlen, hvlen]
  obtain ⟨carry, hcarry, hlaw⟩ := addBack_law f.window (f.k.v.take f.k.nsig) 0 hlen
  have hwin : (phaseD6 f).window = addBack f.window (f.k.v.take f.k.nsig) 0 := by
    show (((phaseD6 f).k.u.drop f.seq.j).take (f.k.nsig + 1)) = _
    rw [phaseD6_window hlen]
    exact window_of_replaced (by omega) (by rw [addBack_length, hwlen])
  rw [← hwin, hwlen] at hlaw
  exact ⟨carry, hcarry, by simpa using hlaw⟩

/-- `D6` keeps the length of `U` and its digits outside the window (R163). -/
theorem phaseD6_outside (hu : f.k.u.length = nd + 1) (hv : f.k.v.length = nd) (hj : f.seq.j + f.k.nsig ≤ nd) :
    (phaseD6 f).k.u.length = nd + 1 ∧
      ∀ i, i < f.seq.j ∨ f.seq.j + f.k.nsig < i → digit (phaseD6 f).k.u i = digit f.k.u i := by
  obtain ⟨hwlen, hvlen⟩ := window_length_eq hu hv hj
  rw [phaseD6_window (f := f) (by rw [hwlen, hvlen]), Frame.above]
  exact ⟨(length_of_replaced (by omega) (by rw [addBack_length, hwlen])).trans hu,
    fun i hi => digit_of_replaced (by omega) (by rw [addBack_length, hwlen]) hi⟩

theorem Frame.window_val_lt (f : Frame wd nd) : digitsVal f.window < 2 ^ (wd * (f.k.nsig + 1)) :=
  digitsVal_take_lt _ _

end

/-- The sign of a difference kept modulo `M` (R160): it is negative exactly when the borrow is 1. -/
theorem borrow_of_sub_law {x p y M : Nat} {c : Bit} (h : x + p = y + c.toNat * M) (hx : x < M) :
    (p ≤ y → x + p = y ∧ c = 0) ∧ (y < p → x + p = y + M ∧ c = 1) := by
  rcases BitVec.eq_zero_or_eq_one c with rfl | rfl
  · rw [show (0#1 : Bit).toNat = 0 from rfl, Nat.zero_mul, Nat.add_zero] at h
    exact ⟨fun _ => ⟨h, rfl⟩, fun hlt => by omega⟩
  · rw [show (1#1 : Bit).toNat = 1 from rfl, Nat.one_mul] at h
    exact ⟨fun hle => by omega, fun _ => ⟨h, rfl⟩⟩

/-- Settles O40: the law of `phaseD4_window_val`, whose borrow is the sign of the difference. -/
theorem d4SubtractsTheProduct : Obligations.D4SubtractsTheProduct := by
  intro wd nd f hu hv _ hj hq
  have hlaw := phaseD4_window_val hu hv hj hq
  obtain ⟨hnonneg, hneg⟩ := borrow_of_sub_law hlaw (phaseD4 f).window_val_lt
  obtain ⟨hlen, houtside⟩ := phaseD4_outside hu hv hj
  exact ⟨hnonneg, hneg, hlen, houtside, rfl, rfl, rfl, rfl⟩

/-- The carry of a sum that does not fit below `M` is 1 (R163). -/
theorem carry_of_add_law {x t M c : Nat} (h : x + c * M = t) (hc : c ≤ 1) (hx : x < M) (ht : M ≤ t) : x + M = t := by
  obtain rfl | rfl : c = 0 ∨ c = 1 := by omega
  · omega
  · rwa [Nat.one_mul] at h

/-- Settles O41: where the sum does not fit `n + 1` digits the carry of `phaseD6_window_val` is 1. -/
theorem d6AddsTheDivisorBack : Obligations.D6AddsTheDivisorBack := by
  intro wd nd f hu hv hqa hn hj n j window hover
  obtain ⟨carry, hle, hlaw⟩ := phaseD6_window_val hu hv hj
  obtain ⟨hlen, houtside⟩ := phaseD6_outside hu hv hj
  have hdigit (i : Nat) := digit_set f.k.qa f.seq.j i (digit f.k.qa f.seq.j - 1) (by omega)
  exact ⟨carry_of_add_law hlaw hle (phaseD6 f).window_val_lt hover, (hdigit j).trans (if_pos rfl), hlen, houtside,
    fun i hi => (hdigit i).trans (if_neg hi), rfl, rfl⟩

end Sys2Proof.Machine

/-! # Errors and holding (`60_exceptions.md` R200, R202, R206) -/

namespace Sys2Proof.Machine

/-! ### A request offered early is held -/

theorem stepResp_not_refused (s : State) (why : Refusal) : stepResp s ≠ .refused why := by
  unfold stepResp
  split
  · split <;> simp
  · simp

/-- A refusal is the answer of an idle block alone (R205). -/
theorem step_not_refused_of_ne_idle {s : State} (hrst : s.env.rst = false) (hifs : s.ifs ≠ .idle) (why : Refusal) :
    step s ≠ .refused why := by
  cases h : s.ifs with
  | idle => exact absurd h hifs
  | busy =>
    cases hi : latchedOperation s with
    | none => simp [step, hrst, h, hi]
    | some i =>
      rw [step_busy hrst h hi]
      exact exec_not_refused i s why
  | resp =>
    rw [step_resp hrst h]
    exact stepResp_not_refused s why

/-- Accept is the one step that takes a request off the offers (R35 step 1). -/
theorem step_offers_of_ne_idle {s t : State} (hifs : s.ifs ≠ .idle) (h : step s = .next t) :
    t.env.offers = s.env.offers := by
  rcases step_next_cases h with ⟨-, rfl⟩ | ⟨-, -, -, rfl⟩ | ⟨-, hidle, -⟩ | ⟨-, -, i, -, hexec⟩ | ⟨-, -, -, rfl⟩ |
    ⟨-, -, -, r, -, rfl⟩
  · rfl
  · rfl
  · exact absurd hidle hifs
  · obtain ⟨-, -, -, -, henv⟩ := exec_next hexec
    rw [henv]
  · rfl
  · rfl

/-- Settles O9: only an idle block refuses, and only an idle block takes a request off the offers. -/
theorem offersAreHeldUntilIdle : Obligations.OffersAreHeldUntilIdle := fun _ hrst hifs =>
  ⟨step_not_refused_of_ne_idle hrst hifs, fun _ => step_offers_of_ne_idle hifs⟩

/-! ### The one error -/

/-- `exec_answers` of a compute step that is known to complete. -/
theorem readResponse_of_exec {i : Instr} {s t : State} (h : exec i s = .next t) :
    readResponse i t.res = .ok (answer i s.opnd.a s.opnd.b) := by
  obtain ⟨t', ht', hread⟩ := exec_answers i s
  obtain rfl : t = t' := by simpa [h] using ht'
  exact hread

theorem readResponse_eq_divisionByZero_iff (i : Instr) (l : ResultLatches) :
    readResponse i l = .ok .divisionByZero ↔ l.st = statusDivisionByZero :=
  ⟨st_of_readResponse_divisionByZero, readResponse_of_divisionByZero⟩

theorem answer_eq_divisionByZero_iff (i : Instr) (a b : Wide) :
    answer i a b = .divisionByZero ↔ i = .divrem ∧ b = 0 := by
  refine ⟨answer_eq_divisionByZero, ?_⟩
  rintro ⟨rfl, hb⟩
  exact if_pos hb

/-- Settles O26: the status `DIVISION_BY_ZERO` is the one whose response is the error, and the operation answers the
error for `DIVREM` with a zero divisor alone. -/
theorem onlyAZeroDivisorIsAnError : Obligations.OnlyAZeroDivisorIsAnError := by
  intro i s t h
  calc t.res.st = statusDivisionByZero
      ↔ readResponse i t.res = .ok .divisionByZero := (readResponse_eq_divisionByZero_iff i t.res).symm
    _ ↔ answer i s.opnd.a s.opnd.b = .divisionByZero := by rw [readResponse_of_exec h, Except.ok.injEq]
    _ ↔ i = .divrem ∧ s.opnd.b = 0 := answer_eq_divisionByZero_iff i s.opnd.a s.opnd.b

/-! ### What the error writes -/

section
variable {wd nd : Nat}

/-- The zero divisor is the first thing `K0` looks at (R133, R153). -/
theorem phaseK0_of_zero (e : Config.Engine) {f : Frame wd nd} (h : f.b = 0) :
    phaseK0 e f = { f with res := f.res.raiseDivisionByZero }.goto .k9 :=
  if_pos ((isZero_iff f.b).2 h)

/-- A zero divisor ends in `K0`, which writes the status alone. -/
theorem runDivrem_of_zero {s : State} (k : KnuthRegs wd nd) (file : KnuthRegs wd nd → KnuthFile) (h : s.opnd.b = 0) :
    ∃ t, runDivrem s k file = .next t ∧ t.res = s.res.raiseDivisionByZero ∧ t.long = s.long ∧ t.knuth = file k ∧
      t.seq.j = s.seq.j ∧ t.seq.i = s.seq.i := by
  have heq := phaseK0_of_zero s.engine (f := s.frame k) h
  refine ⟨_, runDivrem_of_phaseK0_ends file (by rw [heq]; rfl), ?_⟩
  rw [heq]
  exact ⟨rfl, rfl, rfl, rfl, rfl⟩

end

theorem execDivrem_of_zero {s : State} (h : s.opnd.b = 0) :
    ∃ t, execDivrem s = .next t ∧ t.res = s.res.raiseDivisionByZero ∧ t.long = s.long ∧ t.knuth = s.knuth ∧
      t.seq.j = s.seq.j ∧ t.seq.i = s.seq.i := by
  cases hk : s.knuth with
  | digits128 k => simp only [execDivrem, hk]; exact runDivrem_of_zero k .digits128 h
  | digits64 k => simp only [execDivrem, hk]; exact runDivrem_of_zero k .digits64 h

/-- Settles O27: `K0` raises the error and ends the run, before any other phase has written a register. -/
theorem zeroDivisorWritesOnlyTheStatus : Obligations.ZeroDivisorWritesOnlyTheStatus := by
  intro s hb
  obtain ⟨t, ht, hres, hlong, hknuth, hj, hi⟩ := execDivrem_of_zero hb
  obtain ⟨hifs, hfl, hframe⟩ := exec_divrem_frame ht
  have hst : t.res.st = statusDivisionByZero := by simp [hres]
  exact ⟨t, ht, hifs, hst, by simp [hres], by simp [hres], hfl, readResponse_of_divisionByZero hst, hlong, hknuth,
    hj, hi, hframe⟩

end Sys2Proof.Machine

/-! # Reset, waiting and termination (`70_reset_and_hazards.md` R220, R221, R225, R227) -/

namespace Sys2Proof.Machine

/-! ### Every compute step ends -/

/-- Settles O47: every operation completes, `DIVREM` because the run of its phases reaches `K9` within the bound, and a
completed operation leaves `IFS` in `RESP`. -/
theorem everyComputeStepEnds : Obligations.EveryComputeStepEnds := by
  intro i s
  obtain ⟨t, hexec, -⟩ := exec_answers i s
  obtain ⟨hresp, -⟩ := exec_next hexec
  exact ⟨t, hexec, hresp⟩

/-! ### A response waits for the requester -/

theorem stepResp_waits {s : State} (hwait : s.env.willTake = false) : stepResp s = .next s := by
  simp [stepResp, hwait]

/-- A state that a step leaves as it is stays for any number of steps. -/
theorem run_of_step_self {M : Host.Core} {s : M.State} (h : M.step s = .next s) (n : Nat) : M.run n s = .next s := by
  induction n with
  | zero => rfl
  | succ n ih => rw [run_succ h, ih]

/-- Settles O11: with a requester that does not take the response, one step of a block in `RESP` leaves the state as it
is, hence so does every number of steps. -/
theorem responseStaysUntilTaken : Obligations.ResponseStaysUntilTaken := fun n _ hrst hifs hwait =>
  run_of_step_self (M := Sys2Proof.core) ((step_resp hrst hifs).trans (stepResp_waits hwait)) n

/-! ### Reset -/

theorem step_reset {s : State} (hrst : s.env.rst = true) : step s = .next s.applyReset :=
  if_pos hrst

/-- The state after reset is a function of the parameters and of the requester's side (R221). -/
theorem State.applyReset_congr {s s' : State} (hengine : s'.engine = s.engine) (hbits : s'.digitBits = s.digitBits)
    (henv : s'.env = s.env) : s'.applyReset = s.applyReset := by
  rw [State.applyReset, State.applyReset, hengine, hbits, henv]

/-- Settles O13: the step under reset is `applyReset`, which reads the parameters and the requester's side alone. -/
theorem resetAbandonsTheOperation : Obligations.ResetAbandonsTheOperation := by
  intro s hrst
  refine ⟨s.applyReset, step_reset hrst, rfl, rfl, rfl, rfl, rfl, s.applyReset_digitBits,
    fun s' hengine hbits henv => ?_⟩
  have hrst' : s'.env.rst = true := by rw [henv, hrst]
  rw [step_reset hrst', State.applyReset_congr hengine hbits henv]

end Sys2Proof.Machine

/-! # The headers the spec writes out (`95_test_vectors.md` section 2.1) -/

namespace Sys2Proof

/-- Settles O1: each legal header is the one `encode` gives its operation, so `decode_encode` reads it back; each
reserved one meets the condition its reason names. -/
theorem specHeadersDecode : Obligations.SpecHeadersDecode :=
  ⟨decode_encode (.adcl 1), decode_encode (.sbbl 1), decode_encode .cmpw, decode_encode (.shlw 511),
    decode_encode (.shrw 128), decode_encode .iszw, decode_encode .divrem, decode_encode (.addw 1),
    decode_encode (.subw 1), by decide, by decide, by decide⟩

end Sys2Proof
